-- ==== Sys2Proof/Word.lean ====
section
/-! DEFINITION. The word of the machine: a signed integer with a range (`00_scope.md` R6, R8).

A word (one memory cell, one queue element, the relative base) is an `Int`, not a bit vector: the representation
of a word in bits is not observable (R8), and a memory cell must be an integer, not bytes (`20_memory.md` R51).
That it lies in the range of the machine's width is `Config.fits`, which the invariant of State keeps. Log 2. -/

namespace Sys2Proof

/-- MIN of a `bits`-bit word (R6, decision D2). -/
def minOfBits (bits : Nat) : Int := -((2 ^ (bits - 1) : Nat) : Int)

/-- MAX of a `bits`-bit word (R6, decision D2). -/
def maxOfBits (bits : Nat) : Int := ((2 ^ (bits - 1) : Nat) : Int) - 1

end Sys2Proof
end

