-- ==== Sys2Proof/Config.lean ====
section
/-! DEFINITION. The parameters of one Computer (`00_scope.md` R6): W and MEM_CAP.

The spec fixes neither, so the model takes them as data: a Computer's State holds its own `Config`, no
transition changes it, and a statement about every State is a statement about every W and every MEM_CAP.
Log 1. DIAG_WINDOW, which no rule reads, is left out: log 14. -/

namespace Sys2Proof

/-- The implementation parameters of R6. -/
structure Config where
  /-- `W`, the width in bits of a word. -/
  wordBits : Nat
  /-- `MEM_CAP`, the number of words of Memory. -/
  memCap : Nat
  deriving DecidableEq, Repr

/-- MIN (R6). -/
def Config.minWord (c : Config) : Int := minOfBits c.wordBits

/-- MAX (R6). -/
def Config.maxWord (c : Config) : Int := maxOfBits c.wordBits

/-- `fits(v)` for this Computer's width (R8). -/
abbrev Config.fits (c : Config) (v : Int) : Prop := c.minWord ≤ v ∧ v ≤ c.maxWord

/-- The parameters of `State.reset`. `W = 64` is the spec's recommendation (R6, decision D1);
`MEM_CAP = 2^63` is the largest R6 allows, so that no address a word can name is missing.
DESIGN CHOICE, unsafe: log 1. -/
def Config.recommended : Config := { wordBits := 64, memCap := 2 ^ 63 }

end Sys2Proof
end

