-- ==== Sys2Proof/Syntax.lean ====
section
/-! DEFINITION. The instructions as syntax (`30_encoding.md` R84, R86): one constructor per row of the opcode
table, each with the addressing mode of every operand it has.

The raw operand words are no part of an `Instr`: the decoder is a pure function of the instruction word (R91),
and the operand words are read while the instruction runs, in the order of `20_memory.md` R63. -/

namespace Sys2Proof

/-- The three addressing modes (`20_memory.md` R58). -/
inductive Mode where
  /-- digit 0: the raw operand is an address. -/
  | position
  /-- digit 1: the raw operand is the value; its own cell is the write target. -/
  | immediate
  /-- digit 2: the raw operand plus `fp` is an address. -/
  | relative
  deriving DecidableEq, Repr

/-- The ten instructions (R86), operands in the order of `00_scope.md` R11. -/
inductive Instr where
  /-- opcode 1, format F3 (`41_arithmetic.md` R130). -/
  | add (a b dst : Mode)
  /-- opcode 2, format F3 (`41_arithmetic.md` R131). -/
  | mul (a b dst : Mode)
  /-- opcode 3, format F1D (`42_io.md` R140). -/
  | input (dst : Mode)
  /-- opcode 4, format F1S (`42_io.md` R141). -/
  | output (a : Mode)
  /-- opcode 5, format F2S (`43_jumps.md` R150). -/
  | jumpIfTrue (a t : Mode)
  /-- opcode 6, format F2S (`43_jumps.md` R151). -/
  | jumpIfFalse (a t : Mode)
  /-- opcode 7, format F3 (`44_compare.md` R160). -/
  | lessThan (a b dst : Mode)
  /-- opcode 8, format F3 (`44_compare.md` R161). -/
  | equals (a b dst : Mode)
  /-- opcode 9, format F1S (`45_adjust_base.md` R170). -/
  | adjustBase (a : Mode)
  /-- opcode 99, format F0 (`46_halt.md` R175). -/
  | halt
  deriving DecidableEq, Repr

/-- The modes of an instruction's operands, operand 0 first (R84). -/
def Instr.modes : Instr → List Mode
  | .add a b d => [a, b, d]
  | .mul a b d => [a, b, d]
  | .input d => [d]
  | .output a => [a]
  | .jumpIfTrue a t => [a, t]
  | .jumpIfFalse a t => [a, t]
  | .lessThan a b d => [a, b, d]
  | .equals a b d => [a, b, d]
  | .adjustBase a => [a]
  | .halt => []

/-- `NOPS(op)`, the number of operands (R86). -/
def Instr.operandCount (i : Instr) : Nat := i.modes.length

/-- The width of an instruction in words (R80): the instruction word and one word per operand. -/
def Instr.width (i : Instr) : Nat := 1 + i.operandCount

/-- The destination operand of an instruction, its number and mode (the `D` of R84), where it has one. -/
def Instr.destination : Instr → Option (Nat × Mode)
  | .add _ _ d => some (2, d)
  | .mul _ _ d => some (2, d)
  | .input d => some (0, d)
  | .output _ => none
  | .jumpIfTrue _ _ => none
  | .jumpIfFalse _ _ => none
  | .lessThan _ _ d => some (2, d)
  | .equals _ _ d => some (2, d)
  | .adjustBase _ => none
  | .halt => none

/-- The modes of the source operands of an instruction, operand 0 first (the `S` of R84). -/
def Instr.sources : Instr → List Mode
  | .add a b _ => [a, b]
  | .mul a b _ => [a, b]
  | .input _ => []
  | .output a => [a]
  | .jumpIfTrue a t => [a, t]
  | .jumpIfFalse a t => [a, t]
  | .lessThan a b _ => [a, b]
  | .equals a b _ => [a, b]
  | .adjustBase a => [a]
  | .halt => []

/-- Whether an instruction is one of the two conditional jumps (`43_jumps.md` R152). -/
def Instr.isJump : Instr → Bool
  | .add _ _ _ => false
  | .mul _ _ _ => false
  | .input _ => false
  | .output _ => false
  | .jumpIfTrue _ _ => true
  | .jumpIfFalse _ _ => true
  | .lessThan _ _ _ => false
  | .equals _ _ _ => false
  | .adjustBase _ => false
  | .halt => false

/-- An instruction as it stands in memory: with its raw operand words, operand 0 first (R80, R85). -/
structure Code where
  instr : Instr
  operands : List Int
  deriving DecidableEq, Repr

/-- Why the decoder rejects an instruction word (R91). -/
inductive DecodeError where
  /-- the word is negative (R82) or its two low digits name no instruction (R87). -/
  | illegalOpcode (iw : Int)
  /-- the mode digit of operand `i` is 3 to 9 (R88). -/
  | illegalMode (iw : Int) (i : Nat)
  deriving DecidableEq, Repr

end Sys2Proof
end

