-- ==== Sys2Proof/WellFormed.lean ====
section
/-! DEFINITION. When the data a Computer is built from and is given is well formed.

An `Instr` needs no check of its own: its constructors hold nothing but modes, and every mode is legal. What
can be ill formed is the parameters (`00_scope.md` R6), an instruction with its operand words
(`30_encoding.md` R80, R85) and a program image (`47_host_interface.md` R182). -/

namespace Sys2Proof

/-- The constraints of R6 on the parameters: `W >= 16` and `1 <= MEM_CAP <= 2^(W-1)`. -/
abbrev Config.WellFormed (c : Config) : Prop :=
  16 ≤ c.wordBits ∧ 1 ≤ c.memCap ∧ c.memCap ≤ 2 ^ (c.wordBits - 1)

/-- An instruction has exactly its operand words (R80, R86), each of them a word (R85). -/
abbrev Code.WellFormed (c : Config) (k : Code) : Prop :=
  k.operands.length = k.instr.operandCount ∧ ∀ v ∈ k.operands, c.fits v

/-- A program image LOAD accepts: at least one word (R182), each of them a word, and not more than memory
holds. -/
abbrev Config.ImageWellFormed (c : Config) (ws : List Int) : Prop :=
  ws ≠ [] ∧ (∀ v ∈ ws, c.fits v) ∧ ws.length ≤ c.memCap

end Sys2Proof
end

