-- ==== Sys2Proof/Decode.lean ====
section
/-! DEFINITION. The decoder of `30_encoding.md` R91, total on every word and rejecting by name, and the encoder
of R100. The fields are decimal digits (R81). -/

namespace Sys2Proof

/-- `digit(x, k) = (x div 10^k) mod 10` (`00_scope.md` R9). -/
def digit (x k : Nat) : Nat := x / 10 ^ k % 10

/-- The digit that selects a mode (`20_memory.md` R58). -/
def Mode.digit : Mode → Nat
  | .position => 0
  | .immediate => 1
  | .relative => 2

/-- The mode a digit selects; the digits 3 to 9 select none (R88). -/
def Mode.ofDigit : Nat → Option Mode
  | 0 => some .position
  | 1 => some .immediate
  | 2 => some .relative
  | _ => none

/-- `mode[i] = digit(iw, i + 2)` (R83), rejecting a digit above 2 (R88). -/
def decodeMode (iw : Int) (i : Nat) : Except DecodeError Mode :=
  match Mode.ofDigit (Sys2Proof.digit iw.toNat (i + 2)) with
  | some m => .ok m
  | none => .error (.illegalMode iw i)

/-- Format F3: modes of operands 0, 1 and 2, the lowest illegal one rejected first (R84, R88). -/
def decodeThree (iw : Int) (k : Mode → Mode → Mode → Instr) : Except DecodeError Instr := do
  let a ← decodeMode iw 0
  let b ← decodeMode iw 1
  let d ← decodeMode iw 2
  return k a b d

/-- Format F2S: modes of operands 0 and 1 (R84, R88). -/
def decodeTwo (iw : Int) (k : Mode → Mode → Instr) : Except DecodeError Instr := do
  let a ← decodeMode iw 0
  let t ← decodeMode iw 1
  return k a t

/-- Formats F1S and F1D: the mode of operand 0 (R84, R88). -/
def decodeOne (iw : Int) (k : Mode → Instr) : Except DecodeError Instr := do
  let a ← decodeMode iw 0
  return k a

/-- The decoder (R91): negative words (R82), then the opcode `iw mod 100` (R86, R87), then the mode digits of
the operands the opcode has (R83, R88); no other digit is read (R89). -/
def decodeWord (iw : Int) : Except DecodeError Instr :=
  if iw < 0 then .error (.illegalOpcode iw)
  else
    match iw.toNat % 100 with
    | 1 => decodeThree iw .add
    | 2 => decodeThree iw .mul
    | 3 => decodeOne iw .input
    | 4 => decodeOne iw .output
    | 5 => decodeTwo iw .jumpIfTrue
    | 6 => decodeTwo iw .jumpIfFalse
    | 7 => decodeThree iw .lessThan
    | 8 => decodeThree iw .equals
    | 9 => decodeOne iw .adjustBase
    | 99 => .ok .halt
    | _ => .error (.illegalOpcode iw)

/-- An instruction at the head of a list of words, with its operand words, and the words after it (R80, R90):
none where the decoder rejects or an operand word is missing. -/
def decodeCode : List Int → Option (Code × List Int)
  | [] => none
  | iw :: rest =>
    match decodeWord iw with
    | .error _ => none
    | .ok i =>
      if rest.length < i.operandCount then none
      else some ({ instr := i, operands := rest.take i.operandCount }, rest.drop i.operandCount)

/-- The opcode of an instruction (R86). -/
def Instr.opcode : Instr → Nat
  | .add _ _ _ => 1
  | .mul _ _ _ => 2
  | .input _ => 3
  | .output _ => 4
  | .jumpIfTrue _ _ => 5
  | .jumpIfFalse _ _ => 6
  | .lessThan _ _ _ => 7
  | .equals _ _ _ => 8
  | .adjustBase _ => 9
  | .halt => 99

/-- The number whose decimal digits, least significant first, are the mode digits (R81). -/
def modeDigits : List Mode → Nat
  | [] => 0
  | m :: ms => m.digit + 10 * modeDigits ms

/-- The instruction word: `op + 100*mode[0] + 1000*mode[1] + 10000*mode[2]` (R100). -/
def encodeWord (i : Instr) : Int := ((i.opcode + 100 * modeDigits i.modes : Nat) : Int)

/-- The words of an instruction in memory: the instruction word, then its operand words (R80). -/
def encode (k : Code) : List Int := encodeWord k.instr :: k.operands

/-- A word written as `bits` bits in two's complement, read as a signed integer. The spec gives a word no bit
pattern (R8); this one serves only the host's numbered words. Log 12. -/
def signedOfBits (bits n : Nat) : Int :=
  if 2 * (n % 2 ^ bits) < 2 ^ bits then ((n % 2 ^ bits : Nat) : Int)
  else ((n % 2 ^ bits : Nat) : Int) - ((2 ^ bits : Nat) : Int)

/-- The first `count` words of a number that lays words of `bits` bits out, the first one lowest. -/
def wordsOfBits (bits : Nat) : Nat → Nat → List Int
  | 0, _ => []
  | count + 1, n => signedOfBits bits n :: wordsOfBits bits count (n / 2 ^ bits)

/-- The words of a numbered instruction of `nbits` bits: the longest instruction has four words (R80), and
every bit above `nbits` is 0. -/
def tableWords (bits nbits w : Nat) : List Int := wordsOfBits bits 4 (w % 2 ^ nbits)

/-- The instruction the decoder reads from the words of a numbered instruction, in words of the width of
`State.reset`. Log 12. -/
def decodeTableWord (nbits w : Nat) : Option Instr :=
  match decodeCode (tableWords Config.recommended.wordBits nbits w) with
  | some (k, _) => some k.instr
  | none => none

end Sys2Proof
end

