-- ==== Sys2Proof/Machine/State.lean ====
section
/-! DEFINITION. The state of one Computer (`10_state.md` section 1) as plain data, the host's side of it, and
the state after reset (R24). -/

namespace Sys2Proof.Machine

open Sys2Proof

/-- Memory: the cells that do not hold 0, by address (`10_state.md` R27). A cell is a word, not a byte
(`20_memory.md` R51; log 2). An address not listed reads 0, the reset value (R24; log 3). -/
abbrev Memory := List (Nat × Int)

/-- The canonical form of a memory: addresses strictly rising and no listed cell holding 0, so that equal
memories are equal data. -/
abbrev Memory.wf (m : Memory) : Prop :=
  m.Pairwise (fun c d => c.1 < d.1) ∧ ∀ c ∈ m, c.2 ≠ 0

/-- What an access was for (`20_memory.md` R55): recorded in FINFO, with no other effect. -/
inductive AccessKind where
  | fetch
  | operandSlot
  | dataRead
  | dataWrite
  | jumpTarget
  | host
  deriving DecidableEq, Repr

/-- The fatal conditions (`60_exceptions.md` R201): the constructor is FCAUSE, its arguments are FINFO. -/
inductive FatalCondition where
  /-- code 1: the program text is malformed. -/
  | loadFormat
  /-- code 2: the instruction word names no instruction. -/
  | illegalOpcode (iw : Int)
  /-- code 3: an address outside memory; the address is an unbounded integer. -/
  | addressFault (a : Int) (kind : AccessKind)
  /-- code 4: a reserved mode digit of operand `i`. -/
  | illegalMode (iw : Int) (i : Nat)
  /-- code 5: the result of opcode `op` does not fit a word. -/
  | arithOverflow (op : Nat)
  deriving DecidableEq, Repr

/-- FINFO (`10_state.md` R32, `60_exceptions.md` R201): what is recorded beside the cause. -/
inductive FatalInfo where
  | nothing
  | word (iw : Int)
  | address (a : Int) (kind : AccessKind)
  | wordAndOperand (iw : Int) (i : Nat)
  | opcode (op : Nat)
  deriving DecidableEq, Repr

/-- REASON (`10_state.md` R31). -/
inductive Reason where
  | needsInput
  | producedOutput
  deriving DecidableEq, Repr

/-- STATE (`10_state.md` R30). REASON is the argument of Interrupted, as R31 allows; FCAUSE and FINFO, which
R32 makes meaningful only while STATE is Faulted, are the argument of Faulted. Log 13. -/
inductive ExecState where
  | booting
  | ready
  | running
  | interrupted (r : Reason)
  | halted
  | faulted (c : FatalCondition)
  deriving DecidableEq, Repr

/-- The transactions of the host (`47_host_interface.md`). -/
inductive Txn where
  /-- RESET (R180). -/
  | reset
  /-- LOAD of a sequence of words (R182). -/
  | load (ws : List Int)
  /-- `load(program_text)` (R183). -/
  | loadText (text : List Char)
  /-- POKE (R184). -/
  | poke (addr : Int) (v : Int)
  /-- PEEK (R185). -/
  | peek (addr : Int)
  /-- IN_PUSH (R187). -/
  | inPush (v : Int)
  /-- OUT_POP (R188). -/
  | outPop
  /-- RUN (R190). -/
  | run
  deriving DecidableEq, Repr

/-- A transaction the host is going to perform, and when (R196): `delay = none` waits until the core is not
Running, as a synchronous host does; `delay = some n` waits for `n` core steps, or until the core is not
Running, whichever comes first. The model's own: log 5. -/
structure Request where
  txn : Txn
  delay : Option Nat
  deriving DecidableEq, Repr

/-- What a transaction answers the host. -/
inductive Reply where
  /-- the word PEEK returns (R185). -/
  | peek (v : Int)
  /-- `Some(v)` or `None` of OUT_POP (R188). -/
  | outPop (v : Option Int)
  /-- the STATE in which the run span of a RUN ended (`40_execution_loop.md` R117). -/
  | run (st : ExecState)
  deriving DecidableEq, Repr

/-- The host of this Computer: what it is going to do and what it has been answered, oldest first. The model's
own: log 5. -/
structure Driver where
  requests : List Request
  replies : List Reply
  deriving DecidableEq, Repr

/-- The state of one Computer (`10_state.md` section 1), its parameters (`00_scope.md` R6) and its host. -/
structure State where
  /-- W and MEM_CAP (`00_scope.md` R6); no transition changes them. -/
  cfg : Config
  /-- MEM (`10_state.md` R27). -/
  mem : Memory
  /-- pc, a word index (`10_state.md` R21, R22). -/
  pc : Nat
  /-- fp, the relative base (`10_state.md` R25). -/
  fp : Int
  /-- INQ, oldest element first (`10_state.md` R28). -/
  inq : List Int
  /-- OUTQ, oldest element first (`10_state.md` R28). -/
  outq : List Int
  /-- STATE, with REASON, FCAUSE and FINFO (`10_state.md` R30 to R32). -/
  status : ExecState
  /-- The host's requests and replies. -/
  driver : Driver
  deriving DecidableEq, Repr

/-- The reset state of a Computer with the parameters `cfg` (`10_state.md` R24) and a host `d`. -/
def State.resetOf (cfg : Config) (d : Driver) : State :=
  { cfg := cfg, mem := [], pc := 0, fp := 0, inq := [], outq := [], status := .booting, driver := d }

/-- The machine right after reset (R24, `70_reset_and_hazards.md` R230), with the parameters of
`Config.recommended` (log 1) and a host that has asked nothing (log 5). -/
def State.reset : State := State.resetOf Config.recommended { requests := [], replies := [] }

/-- Why the machine stops with a fault. -/
inductive Fault where
  /-- Raised by a turn of the core in STATE Faulted: the fatal condition was taken in an earlier step
  (`60_exceptions.md` R205) and nothing but RESET leaves it (R207). Safe: the model stops for good. -/
  | fatal (c : FatalCondition)
  deriving DecidableEq, Repr

/-- Why the model gives no step. -/
inductive Refusal where
  /-- Raised by an arm of `exec` that has no meaning yet (there is none). Safe: the model stops. -/
  | notModelled (mnemonic : String)
  /-- Raised by a turn of the core when the host asks nothing and STATE is Booting, Ready, Interrupted or
  Halted: the core has a step only while Running (`00_scope.md` R14). Safe: the model stops. -/
  | coreNotRunning (st : ExecState)
  /-- Raised by a transaction the table of `47_host_interface.md` R195 refuses in this STATE.
  Safe: the spec gives the request no meaning. -/
  | transactionRefused (t : Txn) (st : ExecState)
  /-- Raised by LOAD of no words (R182 requires k >= 1). Safe: the spec gives the request no meaning. -/
  | emptyLoad
  /-- Raised by LOAD, POKE and IN_PUSH when a value is no word: the ports carry words (R182, R184, R187).
  Safe: such a request cannot be presented. -/
  | notAWord (v : Int)
  deriving DecidableEq, Repr

/-- What one step of the machine answers. -/
abbrev Result := Host.Outcome State Fault Refusal

end Sys2Proof.Machine
end

