-- ==== Sys2Proof/Machine/Ops.lean ====
section
/-! DEFINITION. The named operations over memory, registers, queues and STATE, among them taking a fatal
condition (`60_exceptions.md` R205), yielding (`40_execution_loop.md` R118) and resuming (`60_exceptions.md`
R210). -/

namespace Sys2Proof.Machine

open Sys2Proof

/-! ### Memory -/

/-- The word at address `a` (`00_scope.md` R10): an address not listed holds 0 (R24). The range of the address
is `checkAddr`'s. -/
def Memory.read : Memory → Nat → Int
  | [], _ => 0
  | c :: m, a => if c.1 = a then c.2 else Memory.read m a

/-- A memory without the cell at `a`. -/
def Memory.erase (m : Memory) (a : Nat) : Memory := m.filter (fun c => c.1 ≠ a)

/-- A memory with the cell `(a, v)` put in its place by address. -/
def Memory.insert (m : Memory) (a : Nat) (v : Int) : Memory :=
  match m with
  | [] => [(a, v)]
  | c :: m => if a < c.1 then (a, v) :: c :: m else c :: Memory.insert m a v

/-- `MEM[a] <- v` (`00_scope.md` R10), in the canonical form: a cell holding 0 is not listed. -/
def Memory.write (m : Memory) (a : Nat) (v : Int) : Memory :=
  if v = 0 then m.erase a else (m.erase a).insert a v

/-- Words written to consecutive addresses from `a` upwards, lowest first (`47_host_interface.md` R182). -/
def Memory.writeAll (m : Memory) (a : Nat) : List Int → Memory
  | [] => m
  | v :: vs => Memory.writeAll (m.write a v) (a + 1) vs

/-- `CheckAddr(a, kind)` (`20_memory.md` R55): the address of a cell, or the fatal condition. The address is a
mathematical integer, never reduced. -/
def checkAddr (cfg : Config) (a : Int) (kind : AccessKind) : Except FatalCondition Nat :=
  if a < 0 ∨ (cfg.memCap : Int) ≤ a then .error (.addressFault a kind) else .ok a.toNat

/-! ### State updates -/

/-- `MemWrite(a, 1, v)` (`00_scope.md` R10). -/
def State.store (s : State) (a : Nat) (v : Int) : State := { s with mem := s.mem.write a v }

/-- `pc <- a`. -/
def State.jump (s : State) (a : Nat) : State := { s with pc := a }

/-- The sequential advance `pc <- pc + n` (`40_execution_loop.md` R115); pc never wraps (`10_state.md` R22). -/
def State.advance (s : State) (n : Nat) : State := { s with pc := s.pc + n }

/-- `fp <- v`. -/
def State.setFp (s : State) (v : Int) : State := { s with fp := v }

/-- INQ replaced by what is left of it. -/
def State.setInq (s : State) (q : List Int) : State := { s with inq := q }

/-- A value becomes the newest element of INQ (`47_host_interface.md` R187). -/
def State.pushIn (s : State) (v : Int) : State := { s with inq := s.inq ++ [v] }

/-- `OutPush(v)` (`00_scope.md` R10): a value becomes the newest element of OUTQ. -/
def State.pushOut (s : State) (v : Int) : State := { s with outq := s.outq ++ [v] }

/-- OUTQ replaced by what is left of it. -/
def State.setOutq (s : State) (q : List Int) : State := { s with outq := q }

/-- `STATE <- st`. -/
def State.setStatus (s : State) (st : ExecState) : State := { s with status := st }

/-- The host is given an answer. -/
def State.answer (s : State) (r : Reply) : State :=
  { s with driver := { s.driver with replies := s.driver.replies ++ [r] } }

/-- The host's requests replaced. -/
def State.setRequests (s : State) (rs : List Request) : State :=
  { s with driver := { s.driver with requests := rs } }

/-! ### Fatal conditions, yields, resumption -/

/-- Taking a fatal condition (`60_exceptions.md` R205): MEM, pc, fp, INQ and OUTQ keep the values they had,
FCAUSE and FINFO are written, STATE becomes Faulted. Log 4. -/
def State.raise (s : State) (c : FatalCondition) : State := s.setStatus (.faulted c)

/-- `yield r` (`40_execution_loop.md` R118): STATE becomes Interrupted with a reason; nothing else changes. -/
def State.yield (s : State) (r : Reason) : State := s.setStatus (.interrupted r)

/-- Resumption, the counterpart of a return (`60_exceptions.md` R210): STATE becomes Running; nothing is
restored because nothing was saved. There is no return from a fatal condition (R207). -/
def State.resume (s : State) : State := s.setStatus .running

/-- What a step or a transaction that began in `s` comes to: the state it reached, or the fatal condition it
raised, taken in `s` itself, so that none of its writes takes effect (`40_execution_loop.md` R114). -/
def State.commit (s : State) : Except FatalCondition State → Result
  | .ok t => .next t
  | .error c => .next (s.raise c)

/-- RESET of a Computer (`47_host_interface.md` R180): every piece of the spec's state takes its reset value.
The parameters and the host's own lists are no state of the core and stay (log 18). -/
def State.toReset (s : State) : State := State.resetOf s.cfg s.driver

/-! ### Status registers by their names -/

/-- REASON (`10_state.md` R31), where it is meaningful. -/
def State.reason (s : State) : Option Reason :=
  match s.status with
  | .interrupted r => some r
  | .booting => none
  | .ready => none
  | .running => none
  | .halted => none
  | .faulted _ => none

/-- The fatal condition of a Faulted Computer. -/
def State.fatal (s : State) : Option FatalCondition :=
  match s.status with
  | .faulted c => some c
  | .booting => none
  | .ready => none
  | .running => none
  | .interrupted _ => none
  | .halted => none

/-- The cause codes of `60_exceptions.md` R201. -/
def FatalCondition.code : FatalCondition → Nat
  | .loadFormat => 1
  | .illegalOpcode _ => 2
  | .addressFault _ _ => 3
  | .illegalMode _ _ => 4
  | .arithOverflow _ => 5

/-- The information recorded with a cause (`60_exceptions.md` R201). -/
def FatalCondition.info : FatalCondition → FatalInfo
  | .loadFormat => .nothing
  | .illegalOpcode iw => .word iw
  | .addressFault a k => .address a k
  | .illegalMode iw i => .wordAndOperand iw i
  | .arithOverflow op => .opcode op

/-- FCAUSE (`10_state.md` R32), where it is meaningful. -/
def State.fcause (s : State) : Option Nat := s.fatal.map FatalCondition.code

/-- FINFO (`10_state.md` R32), where it is meaningful. -/
def State.finfo (s : State) : Option FatalInfo := s.fatal.map FatalCondition.info

end Sys2Proof.Machine
end

