-- ==== Sys2Proof/Machine/Flags.lean ====
section
/-! DEFINITION. The tests of the ALU. The hardware has no flags (`10_state.md` R26): a comparison answers a
word, a jump tests a word against zero, and a result that does not fit a word is a fatal condition
(`41_arithmetic.md` R134). -/

namespace Sys2Proof.Machine

open Sys2Proof

/-- The word 1 or 0 (`44_compare.md` R160, R161). -/
def wordOfBool (b : Bool) : Int := if b then 1 else 0

/-- Signed less-than of the two integers (R160). -/
def lessWord (a b : Int) : Int := wordOfBool (decide (a < b))

/-- Equality of the two integers (R161). -/
def equalWord (a b : Int) : Int := wordOfBool (decide (a = b))

/-- The test of the conditional jumps: any word but 0 is true (`43_jumps.md` R150). -/
def nonZero (a : Int) : Bool := decide (a ≠ 0)

/-- A mathematical result that must fit a word, or `ArithOverflow(op)` (`41_arithmetic.md` R134, decision D3):
never wrapped, saturated or truncated. -/
def fitting (cfg : Config) (op : Nat) (r : Int) : Except FatalCondition Int :=
  if cfg.fits r then .ok r else .error (.arithOverflow op)

end Sys2Proof.Machine
end

