-- ==== Sys2Proof/Machine/Operands.lean ====
section
/-! DEFINITION. Operand fetch and the Addressing Resolver (`20_memory.md` sections 2 and 3): every operand form,
for a source and for a destination, and the frame of the instructions with two sources and a destination. -/

namespace Sys2Proof.Machine

open Sys2Proof

/-- `Slot(i) = pc + 1 + i` (`20_memory.md` R57). -/
def State.slot (s : State) (i : Nat) : Nat := s.pc + 1 + i

/-- `Raw(i)` (R57): the operand slot is checked in every mode, before anything else is done with it. -/
def State.raw (s : State) (i : Nat) : Except FatalCondition Int := do
  let a ← checkAddr s.cfg (s.slot i) .operandSlot
  return s.mem.read a

/-- The effective address before its check, from the raw operand `r` (R58): in immediate mode the slot itself,
for a read and for a write (R62; log 8); in relative mode a sum that never wraps. -/
def State.formAddress (s : State) (i : Nat) (r : Int) : Mode → Int
  | .position => r
  | .immediate => (s.slot i : Int)
  | .relative => r + s.fp

/-- `EA(i, kind)` (R59). -/
def State.ea (s : State) (i : Nat) (m : Mode) (kind : AccessKind) : Except FatalCondition Nat := do
  let r ← s.raw i
  checkAddr s.cfg (s.formAddress i r m) kind

/-- `Val(i)` (R61), the value of a source operand. -/
def State.val (s : State) (i : Nat) (m : Mode) : Except FatalCondition Int := do
  let a ← s.ea i m .dataRead
  return s.mem.read a

/-- The write target of a destination operand (R62). -/
def State.dst (s : State) (i : Nat) (m : Mode) : Except FatalCondition Nat := s.ea i m .dataWrite

/-- Format F3 (`40_execution_loop.md` R114): both sources are read, then the destination is resolved, then the
result is computed, then it is written and pc advances by 4 (`20_memory.md` R63). -/
def State.threeOperand (s : State) (ma mb md : Mode) (op : Int → Int → Except FatalCondition Int) :
    Result :=
  s.commit do
    let a ← s.val 0 ma
    let b ← s.val 1 mb
    let d ← s.dst 2 md
    let r ← op a b
    return (s.store d r).advance 4

end Sys2Proof.Machine
end

