-- ==== Sys2Proof/Machine/AdjustBase.lean ====
section
/-! DEFINITION. `adjust-base` (`45_adjust_base.md`), the only instruction that writes `fp`. -/

namespace Sys2Proof.Machine

open Sys2Proof

/-- `adjust-base a` (R170): the operand is resolved with the old `fp` (`20_memory.md` R60). -/
def execAdjustBase (ma : Mode) (s : State) : Result :=
  s.commit do
    let a ← s.val 0 ma
    let r ← fitting s.cfg 9 (s.fp + a)
    return (s.setFp r).advance 2

end Sys2Proof.Machine
end

