-- ==== Sys2Proof/Machine/Arithmetic.lean ====
section
/-! DEFINITION. `add` and `mul` (`41_arithmetic.md`). -/

namespace Sys2Proof.Machine

open Sys2Proof

/-- `add a, b, dst` (R130). -/
def execAdd (ma mb md : Mode) (s : State) : Result :=
  s.threeOperand ma mb md (fun a b => fitting s.cfg 1 (a + b))

/-- `mul a, b, dst` (R131). -/
def execMul (ma mb md : Mode) (s : State) : Result :=
  s.threeOperand ma mb md (fun a b => fitting s.cfg 2 (a * b))

end Sys2Proof.Machine
end

