-- ==== Sys2Proof/Machine/Compare.lean ====
section
/-! DEFINITION. `less-than` and `equals` (`44_compare.md`). -/

namespace Sys2Proof.Machine

open Sys2Proof

/-- `less-than a, b, dst` (R160): signed and strict; it cannot overflow. -/
def execLessThan (ma mb md : Mode) (s : State) : Result :=
  s.threeOperand ma mb md (fun a b => .ok (lessWord a b))

/-- `equals a, b, dst` (R161). -/
def execEquals (ma mb md : Mode) (s : State) : Result :=
  s.threeOperand ma mb md (fun a b => .ok (equalWord a b))

end Sys2Proof.Machine
end

