-- ==== Sys2Proof/Machine/Halt.lean ====
section
/-! DEFINITION. `halt` (`46_halt.md`). -/

namespace Sys2Proof.Machine

open Sys2Proof

/-- `halt` (R175): STATE becomes Halted; pc stays at the instruction (decision D27). -/
def execHalt (s : State) : Result := .next (s.setStatus .halted)

end Sys2Proof.Machine
end

