-- ==== Sys2Proof/Machine/InputOutput.lean ====
section
/-! DEFINITION. `input` and `output` (`42_io.md`). -/

namespace Sys2Proof.Machine

open Sys2Proof

/-- `input dst` (R140): on an empty INQ it suspends before its operand is looked at; otherwise the oldest
element of INQ is removed and written. -/
def execInput (md : Mode) (s : State) : Result :=
  match s.inq with
  | [] => .next (s.yield .needsInput)
  | v :: q =>
    s.commit do
      let d ← s.dst 0 md
      return ((s.setInq q).store d v).advance 2

/-- `output a` (R141): the value is pushed and pc advances before the yield. -/
def execOutput (ma : Mode) (s : State) : Result :=
  s.commit do
    let a ← s.val 0 ma
    return ((s.pushOut a).advance 2).yield .producedOutput

end Sys2Proof.Machine
end

