-- ==== Sys2Proof/Machine/Jumps.lean ====
section
/-! DEFINITION. `jump-if-true` and `jump-if-false` (`43_jumps.md`). -/

namespace Sys2Proof.Machine

open Sys2Proof

/-- A taken jump (R150): a negative target is the fatal condition of the jump itself, since pc is unsigned; a
target at or past the end of memory is written to pc, and the next fetch raises (decision D6). -/
def jumpTarget (t : Int) : Except FatalCondition Nat :=
  if t < 0 then .error (.addressFault t .jumpTarget) else .ok t.toNat

/-- Format F2S (`40_execution_loop.md` R114): both operands are read whether or not the jump is taken
(decision D32). -/
def State.jumpWhen (s : State) (ma mt : Mode) (cond : Int → Bool) : Result :=
  s.commit do
    let a ← s.val 0 ma
    let t ← s.val 1 mt
    if cond a then
      let d ← jumpTarget t
      return s.jump d
    else
      return s.advance 3

/-- `jump-if-true a, t` (R150). -/
def execJumpIfTrue (ma mt : Mode) (s : State) : Result :=
  s.jumpWhen ma mt (fun a => nonZero a)

/-- `jump-if-false a, t` (R151). -/
def execJumpIfFalse (ma mt : Mode) (s : State) : Result :=
  s.jumpWhen ma mt (fun a => !nonZero a)

end Sys2Proof.Machine
end

