-- ==== Sys2Proof/Machine/Dispatch.lean ====
section
/-! DEFINITION. The dispatch of the engine (`40_execution_loop.md` R113): one handler per instruction. -/

namespace Sys2Proof.Machine

open Sys2Proof

def exec (i : Instr) (s : State) : Host.Outcome State Fault Refusal :=
  match i with
  | .add a b d => Sys2Proof.Machine.execAdd a b d s
  | .mul a b d => Sys2Proof.Machine.execMul a b d s
  | .input d => Sys2Proof.Machine.execInput d s
  | .output a => Sys2Proof.Machine.execOutput a s
  | .jumpIfTrue a t => Sys2Proof.Machine.execJumpIfTrue a t s
  | .jumpIfFalse a t => Sys2Proof.Machine.execJumpIfFalse a t s
  | .lessThan a b d => Sys2Proof.Machine.execLessThan a b d s
  | .equals a b d => Sys2Proof.Machine.execEquals a b d s
  | .adjustBase a => Sys2Proof.Machine.execAdjustBase a s
  | .halt => Sys2Proof.Machine.execHalt s

end Sys2Proof.Machine
end

