-- ==== Sys2Proof/Machine/ProgramText.lean ====
section
/-! DEFINITION. The text of a program (`30_encoding.md` R96 to R98): comma-separated decimal integers. The text
is a list of characters. -/

namespace Sys2Proof.Machine

open Sys2Proof

/-- The value of a decimal digit (R97). -/
def digitValue (c : Char) : Option Nat :=
  if 48 ≤ c.toNat ∧ c.toNat ≤ 57 then some (c.toNat - 48) else none

/-- The value of a run of decimal digits read after `acc`; leading zeros are accepted (R97). -/
def parseDigits (acc : Nat) : List Char → Option Nat
  | [] => some acc
  | c :: cs =>
    match digitValue c with
    | none => none
    | some d => parseDigits (10 * acc + d) cs

/-- One or more digits (R97). -/
def parseNatural : List Char → Option Nat
  | [] => none
  | c :: cs => parseDigits 0 (c :: cs)

/-- `integer ::= ["-"] digit+` (R97). -/
def parseInteger : List Char → Option Int
  | [] => none
  | c :: cs =>
    if c = '-' then (parseNatural cs).map (fun n : Nat => -(n : Int))
    else (parseNatural (c :: cs)).map (fun n : Nat => (n : Int))

/-- An integer whose value is a word (R97). -/
def parseWord (cfg : Config) (tok : List Char) : Option Int :=
  match parseInteger tok with
  | none => none
  | some v => if cfg.fits v then some v else none

/-- The tokens between commas; there is always at least one, possibly empty. -/
def splitCommas : List Char → List (List Char)
  | [] => [[]]
  | c :: cs =>
    if c = ',' then [] :: splitCommas cs
    else
      match splitCommas cs with
      | [] => [[c]]
      | tok :: toks => (c :: tok) :: toks

/-- The optional trailing newline (R97): one is taken away, a second is left for the parser to reject. -/
def dropNewline : List Char → List Char
  | [] => []
  | c :: cs => if c = '\n' ∧ cs = [] then [] else c :: dropNewline cs

/-- Every token a word, in order. -/
def parseTokens (cfg : Config) : List (List Char) → Option (List Int)
  | [] => some []
  | tok :: toks =>
    match parseWord cfg tok with
    | none => none
    | some v => (parseTokens cfg toks).map (fun vs => v :: vs)

/-- The words of a program text, or none where the grammar of R97 does not accept it. -/
def parseText (cfg : Config) (text : List Char) : Option (List Int) :=
  parseTokens cfg (splitCommas (dropNewline text))

end Sys2Proof.Machine
end

