-- ==== Sys2Proof/Machine/HostInterface.lean ====
section
/-! DEFINITION. The host's transactions (`47_host_interface.md`): their legality (R195), their effects and their
replies. Each is one atomic transition (R196). -/

namespace Sys2Proof.Machine

open Sys2Proof

/-- The rows of the table of R195. -/
inductive TxnKind where
  | reset
  | load
  | pokePeek
  | inPush
  | outPop
  | run
  deriving DecidableEq, Repr

/-- The row of R195 a transaction belongs to; the load of a text is a LOAD (R183). -/
def Txn.kind : Txn → TxnKind
  | .reset => .reset
  | .load _ => .load
  | .loadText _ => .load
  | .poke _ _ => .pokePeek
  | .peek _ => .pokePeek
  | .inPush _ => .inPush
  | .outPop => .outPop
  | .run => .run

/-- The table of R195, row by row. -/
def legal : TxnKind → ExecState → Bool
  | .reset, .booting => true
  | .reset, .ready => true
  | .reset, .running => true
  | .reset, .interrupted _ => true
  | .reset, .halted => true
  | .reset, .faulted _ => true
  | .load, .booting => true
  | .load, .ready => false
  | .load, .running => false
  | .load, .interrupted _ => false
  | .load, .halted => false
  | .load, .faulted _ => false
  | .pokePeek, .booting => false
  | .pokePeek, .ready => true
  | .pokePeek, .running => false
  | .pokePeek, .interrupted _ => true
  | .pokePeek, .halted => true
  | .pokePeek, .faulted _ => false
  | .inPush, .booting => true
  | .inPush, .ready => true
  | .inPush, .running => true
  | .inPush, .interrupted _ => true
  | .inPush, .halted => true
  | .inPush, .faulted _ => false
  | .outPop, .booting => true
  | .outPop, .ready => true
  | .outPop, .running => true
  | .outPop, .interrupted _ => true
  | .outPop, .halted => true
  | .outPop, .faulted _ => false
  | .run, .booting => false
  | .run, .ready => true
  | .run, .running => false
  | .run, .interrupted _ => true
  | .run, .halted => false
  | .run, .faulted _ => false

/-- The first value of a list that is no word (R182, R184, R187: the ports carry words). -/
def notWord (cfg : Config) : List Int → Option Int
  | [] => none
  | v :: vs => if cfg.fits v then notWord cfg vs else some v

/-- A port takes words only; a value that is no word cannot be presented. Log 11. -/
def State.presented (s : State) (vs : List Int) (r : Result) : Result :=
  match notWord s.cfg vs with
  | some v => .refused (.notAWord v)
  | none => r

/-- LOAD's effect on words (R182): more than memory holds is the fatal condition; otherwise the image is
written from address 0 and STATE becomes Ready. -/
def State.loadImage (s : State) (ws : List Int) : Result :=
  s.commit
    (if s.cfg.memCap < ws.length then .error (.addressFault s.cfg.memCap .host)
     else .ok ({ s with mem := s.mem.writeAll 0 ws }.setStatus .ready))

/-- LOAD (R182), which takes at least one word. -/
def hostLoad (ws : List Int) (s : State) : Result :=
  match ws with
  | [] => .refused .emptyLoad
  | w :: ws => s.presented (w :: ws) (s.loadImage (w :: ws))

/-- `load(program_text)` (R183, `30_encoding.md` R98). -/
def hostLoadText (text : List Char) (s : State) : Result :=
  match parseText s.cfg text with
  | none => .next (s.raise .loadFormat)
  | some ws => s.loadImage ws

/-- POKE (R184). -/
def hostPoke (addr : Int) (v : Int) (s : State) : Result :=
  s.presented [v] (s.commit do
    let a ← checkAddr s.cfg addr .host
    return s.store a v)

/-- PEEK (R185); the reply is the word. -/
def hostPeek (addr : Int) (s : State) : Result :=
  s.commit do
    let a ← checkAddr s.cfg addr .host
    return s.answer (.peek (s.mem.read a))

/-- IN_PUSH (R187); no reply, and the engine is not woken. -/
def hostInPush (v : Int) (s : State) : Result := s.presented [v] (.next (s.pushIn v))

/-- OUT_POP (R188); the reply is the oldest element, or None. -/
def hostOutPop (s : State) : Result :=
  match s.outq with
  | [] => .next (s.answer (.outPop none))
  | v :: q => .next ((s.setOutq q).answer (.outPop (some v)))

/-- RUN (R190): STATE becomes Running; the reply comes when the run span ends. -/
def hostRun (s : State) : Result := .next s.resume

/-- RESET (R180). -/
def hostReset (s : State) : Result := .next s.toReset

/-- The effect of a transaction where it is legal. -/
def transact (t : Txn) (s : State) : Result :=
  match t with
  | .reset => hostReset s
  | .load ws => hostLoad ws s
  | .loadText text => hostLoadText text s
  | .poke addr v => hostPoke addr v s
  | .peek addr => hostPeek addr s
  | .inPush v => hostInPush v s
  | .outPop => hostOutPop s
  | .run => hostRun s

/-- A transaction (R195): its effect where the table says yes, a refusal where it says refused. -/
def perform (t : Txn) (s : State) : Result :=
  if legal t.kind s.status then transact t s else .refused (.transactionRefused t s.status)

end Sys2Proof.Machine
end

