-- ==== Sys2Proof/Machine/Engine.lean ====
section
/-! DEFINITION. The fetch-decode-execute step of the core (`40_execution_loop.md`), the run loop, and the turn
of the whole machine, which is the core's or the host's. -/

namespace Sys2Proof.Machine

open Sys2Proof

/-- The fatal condition of a rejected instruction word (`30_encoding.md` R91). -/
def fatalOfDecode : DecodeError → FatalCondition
  | .illegalOpcode iw => .illegalOpcode iw
  | .illegalMode iw i => .illegalMode iw i

/-- Fetch (`40_execution_loop.md` R111): the instruction word at pc, from memory as it is (`20_memory.md` R71). -/
def State.fetch (s : State) : Except FatalCondition Int := do
  let a ← checkAddr s.cfg s.pc .fetch
  return s.mem.read a

/-- Fetch and decode (R111, R112). -/
def State.fetchDecode (s : State) : Except FatalCondition Instr := do
  let iw ← s.fetch
  match decodeWord iw with
  | .ok i => return i
  | .error e => throw (fatalOfDecode e)

/-- `Step()` (R114), for a state in which STATE is Running: one whole instruction, or the fatal condition of
its fetch or decode. -/
def coreStep (s : State) : Result :=
  match s.fetchDecode with
  | .ok i => exec i s
  | .error c => .next (s.raise c)

/-- A RUN is answered when STATE leaves Running, with the STATE the run span ended in (R117). Log 6. -/
def State.deliver (s : State) : State :=
  match s.status with
  | .running => s
  | .booting => s.answer (.run .booting)
  | .ready => s.answer (.run .ready)
  | .interrupted r => s.answer (.run (.interrupted r))
  | .halted => s.answer (.run .halted)
  | .faulted c => s.answer (.run (.faulted c))

/-- A turn of the core: a step when STATE is Running; no step in any other STATE (`00_scope.md` R14), and in
Faulted the machine has stopped with its fatal condition (`60_exceptions.md` R205; log 4, 7). -/
def coreTurn (s : State) : Result :=
  match s.status with
  | .running =>
    match coreStep s with
    | .next t => .next t.deliver
    | .fault f => .fault f
    | .refused r => .refused r
  | .faulted c => .fault (.fatal c)
  | .booting => .refused (.coreNotRunning .booting)
  | .ready => .refused (.coreNotRunning .ready)
  | .interrupted r => .refused (.coreNotRunning (.interrupted r))
  | .halted => .refused (.coreNotRunning .halted)

/-- A request whose core step has been taken: it waits for one less. -/
def Request.tick (r : Request) : Request := { r with delay := r.delay.map (· - 1) }

/-- Whether the host's next request is performed now, or the core steps first (`47_host_interface.md` R196;
log 5). -/
def Request.due (r : Request) (st : ExecState) : Bool :=
  decide (st ≠ .running) || decide (r.delay = some 0)

/-- One turn of the machine: the host's next request where it is due, else the core's turn. -/
def machineTurn (s : State) : Result :=
  match s.driver.requests with
  | [] => coreTurn s
  | r :: rs =>
    if r.due s.status then perform r.txn (s.setRequests rs)
    else coreTurn (s.setRequests (r.tick :: rs))

/-- At most `n` steps of the core, for as long as STATE is Running (`40_execution_loop.md` R117): the loop of a
run span, which the hardware does not bound (R121). -/
def runLoop : Nat → State → Result
  | 0, s => .next s
  | n + 1, s =>
    if s.status = .running then
      match coreStep s with
      | .next t => runLoop n t
      | .fault f => .fault f
      | .refused r => .refused r
    else .next s

/-- The words of a numbered instruction put in memory from address `a` upwards, and the core set running with
nothing asked by the host, so that the next turn fetches at `a`. Log 12. -/
def State.withWords (s : State) (a : Nat) (ws : List Int) : State :=
  ({ s with mem := s.mem.writeAll a ws }.setStatus .running).setRequests []

end Sys2Proof.Machine
end

