-- ==== Sys2Proof/Machine/Step.lean ====
section
/-! DEFINITION. The step of the machine, and the state whose next step runs a given instruction. -/

namespace Sys2Proof.Machine

open Sys2Proof

/-- One step of the machine: a whole instruction of the core (`40_execution_loop.md` R110) or one transaction
of the host (`47_host_interface.md` R196). -/
def step (s : State) : Host.Outcome State Fault Refusal := machineTurn s

/-- `s` with a numbered instruction where the next step fetches: its words at pc, STATE Running, no request of
the host pending. Log 12 says how a program comes to run from reset. -/
def State.withFetchWord (s : State) (nbits w : Nat) : State :=
  s.withWords s.pc (tableWords s.cfg.wordBits nbits w)

end Sys2Proof.Machine
end

