-- ==== Sys2Proof/Machine/System.lean ====
section
/-! DEFINITION. Several Computers (`10_state.md` R35, `20_memory.md` R75, `60_exceptions.md` R215): independent
machines with disjoint state. The order of their turns is a schedule, the host's choice. Log 16. -/

namespace Sys2Proof.Machine

open Sys2Proof

/-- The Computers of a system. -/
abbrev System := List State

/-- A turn of Computer `k`: the others keep their state. None where `k` has no next state. -/
def System.turn (k : Nat) (sys : System) : Option System :=
  match sys[k]? with
  | none => none
  | some s =>
    match step s with
    | .next t => some (sys.set k t)
    | .fault _ => none
    | .refused _ => none

/-- The turns of a schedule, in order. -/
def System.run : List Nat → System → Option System
  | [], sys => some sys
  | k :: ks, sys =>
    match System.turn k sys with
    | none => none
    | some sys' => System.run ks sys'

/-- One transaction of the host on Computer `k`. -/
def System.transact (k : Nat) (t : Txn) (sys : System) : Option System :=
  match sys[k]? with
  | none => none
  | some s =>
    match perform t s with
    | .next s' => some (sys.set k s')
    | .fault _ => none
    | .refused _ => none

/-- The host moves a value from Computer `i` to Computer `j` (`47_host_interface.md` R198): OUT_POP on the
first, and IN_PUSH of what it answered on the second; nothing more where OUTQ was empty. -/
def System.handOff (i j : Nat) (sys : System) : Option System :=
  match sys[i]? with
  | none => none
  | some s =>
    match s.outq with
    | [] => System.transact i .outPop sys
    | v :: _ =>
      match System.transact i .outPop sys with
      | none => none
      | some sys' => System.transact j (.inPush v) sys'

end Sys2Proof.Machine
end

