-- ==== Sys2Proof/Safety.lean ====
section
/-! DEFINITION. What statements about the machine are made in: the invariant of State, the STATE transitions of
the spec, and what a safe run is. -/

namespace Sys2Proof.Machine

open Sys2Proof

/-- Every cell of a memory is in range and holds a word (`10_state.md` R27). -/
abbrev Memory.inRange (cfg : Config) (m : Memory) : Prop :=
  ∀ c ∈ m, c.1 < cfg.memCap ∧ cfg.fits c.2

/-- What holds of every state the machine can be in: legal parameters (`00_scope.md` R6), a canonical memory of
words within MEM_CAP (`10_state.md` R27), pc within its W bits (R22), fp a word (R25), queues of words (R28). -/
abbrev State.Inv (s : State) : Prop :=
  s.cfg.WellFormed ∧ s.mem.wf ∧ s.mem.inRange s.cfg ∧ s.pc < 2 ^ s.cfg.wordBits ∧ s.cfg.fits s.fp ∧
    (∀ v ∈ s.inq, s.cfg.fits v) ∧ (∀ v ∈ s.outq, s.cfg.fits v)

/-- What STATE says about the rest (`10_state.md` R30): in Booting no program has been loaded, so memory is
zero; in Booting and in Ready no instruction has been executed, so pc and fp are 0 and OUTQ is empty. -/
abbrev State.BootInv (s : State) : Prop :=
  (s.status = .booting → s.mem = []) ∧
    (s.status = .booting ∨ s.status = .ready → s.pc = 0 ∧ s.fp = 0 ∧ s.outq = [])

/-- The access kinds an instruction's own operation can fault on (`60_exceptions.md` R202). -/
def accessRaisable (i : Instr) : AccessKind → Bool
  | .fetch => false
  | .operandSlot => decide (i.operandCount ≠ 0)
  | .dataRead => decide (i.sources ≠ [])
  | .dataWrite => decide (i.destination ≠ none)
  | .jumpTarget => i.isJump
  | .host => false

/-- What an instruction can raise once it is decoded: its row of the table of `60_exceptions.md` R202. -/
def raisable (i : Instr) : FatalCondition → Bool
  | .loadFormat => false
  | .illegalOpcode _ => false
  | .illegalMode _ _ => false
  | .addressFault _ k => accessRaisable i k
  | .arithOverflow op =>
    match i with
    | .add _ _ _ => op == 1
    | .mul _ _ _ => op == 2
    | .adjustBase _ => op == 9
    | .input _ => false
    | .output _ => false
    | .jumpIfTrue _ _ => false
    | .jumpIfFalse _ _ => false
    | .lessThan _ _ _ => false
    | .equals _ _ _ => false
    | .halt => false

/-- A fatal condition of an instruction step, its fetch and decode among it (`60_exceptions.md` R202): not one
of the host's. -/
def FatalCondition.ofStep : FatalCondition → Bool
  | .loadFormat => false
  | .illegalOpcode _ => true
  | .addressFault _ k => decide (k ≠ .host)
  | .illegalMode _ _ => true
  | .arithOverflow _ => true

/-- The transition relation of STATE (`40_execution_loop.md` R116): from, to. -/
inductive Transition : ExecState → ExecState → Prop where
  /-- any state to Booting: RESET. -/
  | reset (st : ExecState) : Transition st .booting
  /-- Booting to Ready: a successful LOAD. -/
  | load : Transition .booting .ready
  /-- Ready to Running: RUN. -/
  | runReady : Transition .ready .running
  /-- Interrupted to Running: RUN. -/
  | runInterrupted (r : Reason) : Transition (.interrupted r) .running
  /-- Running to Running: a step that neither yields, halts nor raises. -/
  | loop : Transition .running .running
  /-- Running to Interrupted: a yield. -/
  | yield (r : Reason) : Transition .running (.interrupted r)
  /-- Running to Halted: opcode 99. -/
  | halt : Transition .running .halted
  /-- Running to Faulted: a fatal condition of a step. -/
  | fault (c : FatalCondition) (h : c.ofStep = true) : Transition .running (.faulted c)
  /-- Booting to Faulted: a LOAD of a text the grammar does not accept. -/
  | textFault : Transition .booting (.faulted .loadFormat)
  /-- Booting to Faulted: a LOAD of more words than memory holds. -/
  | sizeFault (a : Int) : Transition .booting (.faulted (.addressFault a .host))
  /-- Ready to Faulted: a POKE or PEEK out of range. -/
  | portFaultReady (a : Int) : Transition .ready (.faulted (.addressFault a .host))
  /-- Interrupted to Faulted: a POKE or PEEK out of range. -/
  | portFaultInterrupted (r : Reason) (a : Int) :
      Transition (.interrupted r) (.faulted (.addressFault a .host))
  /-- Halted to Faulted: a POKE or PEEK out of range. -/
  | portFaultHalted (a : Int) : Transition .halted (.faulted (.addressFault a .host))

/-- Memory reads the same at every address. -/
abbrev SameMemory (s t : State) : Prop := ∀ x, t.mem.read x = s.mem.read x

/-- Memory reads `v` at `d` and the same as before at every other address. -/
abbrev StoredOnly (s t : State) (d : Nat) (v : Int) : Prop :=
  ∀ x, t.mem.read x = if x = d then v else s.mem.read x

/-- What no instruction touches: the parameters and the host's lists. -/
abbrev SameSurroundings (s t : State) : Prop := t.cfg = s.cfg ∧ t.driver = s.driver

/-- A state from which the machine has not met a fatal condition. -/
abbrev State.Unfaulted (s : State) : Prop := s.fatal = none

/-- A run of `n` steps that is safe: it reaches a state, and that state is not Faulted (`60_exceptions.md`
R205: Faulted is never a final state of a successful run). -/
def SafeFor (n : Nat) (s : State) : Prop :=
  ∃ t, Sys2Proof.core.run n s = .next t ∧ State.Unfaulted t

/-- A program run that has ended as it should (`00_scope.md` R16). -/
abbrev State.Finished (s : State) : Prop := s.status = .halted

/-! ### The grammar of program text (`30_encoding.md` R97), said apart from the parser -/

/-- The character of a decimal digit. -/
def digitChar (d : Nat) : Char := Char.ofNat (48 + d)

/-- The decimal value of digits, most significant first. -/
def decimalValue (ds : List Nat) : Nat := ds.foldl (fun acc d => 10 * acc + d) 0

/-- `digit+`: one or more decimal digits, with their value. -/
def IsDigits (tok : List Char) (n : Nat) : Prop :=
  ∃ ds : List Nat, ds ≠ [] ∧ (∀ d ∈ ds, d < 10) ∧ tok = ds.map digitChar ∧ n = decimalValue ds

/-- `integer ::= ["-"] digit+`, with its value. -/
def IsInteger (tok : List Char) (v : Int) : Prop :=
  ∃ n : Nat, (IsDigits tok n ∧ v = (n : Int)) ∨ (∃ ds, tok = '-' :: ds ∧ IsDigits ds n ∧ v = -(n : Int))

/-- `( "," integer )*`, with the values. -/
inductive IsMore : List Char → List Int → Prop where
  | done : IsMore [] []
  | more (tok rest : List Char) (v : Int) (vs : List Int) (h : IsInteger tok v) (hs : IsMore rest vs) :
      IsMore (',' :: (tok ++ rest)) (v :: vs)

/-- `text ::= integer ( "," integer )* [ newline ]`, with the values. -/
def IsText (text : List Char) (vs : List Int) : Prop :=
  ∃ tok rest nl v ws, IsInteger tok v ∧ IsMore rest ws ∧ (nl = [] ∨ nl = ['\n']) ∧
    text = tok ++ rest ++ nl ∧ vs = v :: ws

end Sys2Proof.Machine
end

