-- ==== Sys2Proof/Certificates/Slice0/Obligations.lean ====
section
/-! DEFINITION. The statements for the provers. Rule numbers are those of spec/; "log" is notes/assumptions/.

Statements about `coreStep` are about the spec's `Step()` (`40_execution_loop.md` R114), statements about
`perform` about the host's transactions (`47_host_interface.md`), statements about `step` about the whole
machine, which is one or the other in the order the host's requests give (log 5). -/

open Sys2Proof Sys2Proof.Machine

/-! ### Reset and invariants -/

/-- R24 and R180: the reset values, in `State.reset` and after RESET in any state; RESET keeps the parameters
and the host's lists (log 18). -/
def Obligations.ResetGivesTheResetValues : Prop :=
  ((∀ a, State.reset.mem.read a = 0) ∧ State.reset.pc = 0 ∧ State.reset.fp = 0 ∧ State.reset.inq = [] ∧
      State.reset.outq = [] ∧ State.reset.status = .booting) ∧
    ∀ s : State, ∃ t, perform .reset s = .next t ∧ (∀ a, t.mem.read a = 0) ∧ t.pc = 0 ∧ t.fp = 0 ∧
      t.inq = [] ∧ t.outq = [] ∧ t.status = .booting ∧ SameSurroundings s t

/-- The reset state of every Computer with legal parameters meets the invariants; so does `State.reset`, whose
parameters are the model's choice (log 1). -/
def Obligations.ResetMeetsTheInvariants : Prop :=
  Config.recommended.WellFormed ∧ State.reset.Inv ∧ State.reset.BootInv ∧
    ∀ (cfg : Config) (d : Driver), cfg.WellFormed →
      (State.resetOf cfg d).Inv ∧ (State.resetOf cfg d).BootInv

/-- Every step keeps the invariant of State: legal parameters, canonical memory of words within MEM_CAP, pc
within W bits, fp a word, queues of words (R6, R22, R25, R27, R28, R133, R134). -/
def Obligations.StepKeepsTheInvariant : Prop :=
  ∀ s t : State, s.Inv → step s = .next t → t.Inv

/-- Every step keeps what Booting and Ready say of the rest of the state (R24, R30, R182, R195). -/
def Obligations.StepKeepsTheBootInvariant : Prop :=
  ∀ s t : State, s.BootInv → step s = .next t → t.BootInv

/-- W and MEM_CAP never change (R6, R27; conflict C12); that they stand in State is the model's (log 1). -/
def Obligations.ParametersNeverChange : Prop :=
  ∀ s t : State, step s = .next t → t.cfg = s.cfg

/-! ### Encoding -/

/-- The decoder accepts exactly the non-negative words whose two low digits are an opcode and whose next digits
are the modes of its operands, whatever the other digits are (R81, R83, R86, R89, R91). -/
def Obligations.DecoderReadsTheDecimalDigits : Prop :=
  ∀ (iw : Int) (i : Instr), decodeWord iw = .ok i ↔
    0 ≤ iw ∧ iw.toNat % 100 = i.opcode ∧
      ∀ k m, i.modes[k]? = some m → iw.toNat / 10 ^ (k + 2) % 10 = m.digit

/-- The instruction word of every instruction decodes to it, with any digits above those of its operands
(R89, R100). -/
def Obligations.EncodedWordDecodesBack : Prop :=
  ∀ (i : Instr) (h : Nat),
    decodeWord (encodeWord i + ((10 ^ (2 + i.operandCount) * h : Nat) : Int)) = .ok i

/-- The words of an instruction with its operand words, whatever follows them, decode back to it, and there are
as many as its width says (R80, R85, R90). -/
def Obligations.EncodedCodeDecodesBack : Prop :=
  ∀ (cfg : Config) (k : Code) (rest : List Int), k.WellFormed cfg →
    decodeCode (encode k ++ rest) = some (k, rest) ∧ (encode k).length = k.instr.width

/-- R82 and R87: the words the decoder rejects as IllegalOpcode. -/
def Obligations.IllegalOpcodeWords : Prop :=
  ∀ iw w : Int, decodeWord iw = .error (.illegalOpcode w) ↔
    w = iw ∧ (iw < 0 ∨ iw.toNat % 100 = 0 ∨ (10 ≤ iw.toNat % 100 ∧ iw.toNat % 100 ≤ 98))

/-- R88: the words the decoder rejects as IllegalMode, and the operand it names: the lowest one whose digit is
above 2, among those the opcode has. -/
def Obligations.ReservedModeDigits : Prop :=
  ∀ (iw w : Int) (k : Nat), decodeWord iw = .error (.illegalMode w k) ↔
    w = iw ∧ 0 ≤ iw ∧ ∃ i : Instr, i.opcode = iw.toNat % 100 ∧ k < i.operandCount ∧
      2 < iw.toNat / 10 ^ (k + 2) % 10 ∧ ∀ j, j < k → iw.toNat / 10 ^ (j + 2) % 10 ≤ 2

/-- Every instruction word is a word of every legal width (R6: the reason for `W >= 16`). -/
def Obligations.InstructionWordsFitEveryLegalWidth : Prop :=
  ∀ (cfg : Config) (i : Instr), cfg.WellFormed → cfg.fits (encodeWord i)

/-- A few words of `95_test_vectors.md` section 2.1, and the words of its examples. -/
def Obligations.WrittenOutWordsDecode : Prop :=
  decodeWord 1002 = .ok (.mul .position .immediate .position) ∧
    decodeWord 22208 = .ok (.equals .relative .relative .relative) ∧
    decodeWord 204 = .ok (.output .relative) ∧
    decodeWord 1006 = .ok (.jumpIfFalse .position .immediate) ∧
    decodeWord 12399 = .ok .halt ∧
    decodeWord 100001 = .ok (.add .position .position .position) ∧
    decodeWord 93301 = .error (.illegalMode 93301 0) ∧
    decodeWord (-99) = .error (.illegalOpcode (-99))

/-- Two canonical memories that read the same at every address are the same memory (log 3). -/
def Obligations.CanonicalMemoriesReadingAlikeAreEqual : Prop :=
  ∀ m m' : Memory, m.wf → m'.wf → (∀ a, m.read a = m'.read a) → m = m'

/-! ### Operands -/

/-- R57 and R59: the raw operand and the effective address of each mode, and the fatal condition where the slot
or the address is out of range. -/
def Obligations.EffectiveAddressByMode : Prop :=
  ∀ (s : State) (i : Nat) (kind : AccessKind),
    (s.cfg.memCap ≤ s.pc + 1 + i →
      s.raw i = .error (.addressFault ((s.pc + 1 + i : Nat) : Int) .operandSlot) ∧
      ∀ m, s.ea i m kind = .error (.addressFault ((s.pc + 1 + i : Nat) : Int) .operandSlot)) ∧
    (s.pc + 1 + i < s.cfg.memCap →
      s.raw i = .ok (s.mem.read (s.pc + 1 + i)) ∧
      s.ea i .immediate kind = .ok (s.pc + 1 + i) ∧
      ∀ m a, (m = .position ∧ a = s.mem.read (s.pc + 1 + i)) ∨
          (m = .relative ∧ a = s.mem.read (s.pc + 1 + i) + s.fp) →
        (0 ≤ a → a < (s.cfg.memCap : Int) → s.ea i m kind = .ok a.toNat) ∧
        (a < 0 ∨ (s.cfg.memCap : Int) ≤ a → s.ea i m kind = .error (.addressFault a kind)))

/-- R61: the value of a source operand in each mode; it raises what its effective address raises. -/
def Obligations.SourceValueByMode : Prop :=
  ∀ (s : State) (i : Nat),
    (s.pc + 1 + i < s.cfg.memCap →
      s.val i .immediate = .ok (s.mem.read (s.pc + 1 + i)) ∧
      (∀ a : Nat, s.mem.read (s.pc + 1 + i) = (a : Int) → a < s.cfg.memCap →
        s.val i .position = .ok (s.mem.read a)) ∧
      (∀ a : Nat, s.mem.read (s.pc + 1 + i) + s.fp = (a : Int) → a < s.cfg.memCap →
        s.val i .relative = .ok (s.mem.read a))) ∧
    ∀ m c, s.val i m = .error c ↔ s.ea i m .dataRead = .error c

/-- R62: the write target of a destination operand is the effective address, for each mode; in immediate mode
it is the operand's own slot (the spec's reading, decision D10; log 8). -/
def Obligations.DestinationAddressByMode : Prop :=
  ∀ (s : State) (i : Nat),
    (∀ m, s.dst i m = s.ea i m .dataWrite) ∧
    (s.pc + 1 + i < s.cfg.memCap →
      s.dst i .immediate = .ok (s.pc + 1 + i) ∧
      (∀ a : Nat, s.mem.read (s.pc + 1 + i) = (a : Int) → a < s.cfg.memCap → s.dst i .position = .ok a) ∧
      (∀ a : Nat, s.mem.read (s.pc + 1 + i) + s.fp = (a : Int) → a < s.cfg.memCap →
        s.dst i .relative = .ok a))

/-! ### Where each instruction completes, its result and its frame -/

/-- R130: `add` writes the sum to its destination and nothing else but pc changes. -/
def Obligations.AddCompletes : Prop :=
  ∀ (ma mb md : Mode) (s : State) (a b : Int) (d : Nat),
    s.val 0 ma = .ok a → s.val 1 mb = .ok b → s.dst 2 md = .ok d → s.cfg.fits (a + b) →
    ∃ t, exec (.add ma mb md) s = .next t ∧ StoredOnly s t d (a + b) ∧ t.pc = s.pc + 4 ∧ t.fp = s.fp ∧
      t.inq = s.inq ∧ t.outq = s.outq ∧ t.status = s.status ∧ SameSurroundings s t

/-- R131: `mul` writes the product to its destination and nothing else but pc changes. -/
def Obligations.MulCompletes : Prop :=
  ∀ (ma mb md : Mode) (s : State) (a b : Int) (d : Nat),
    s.val 0 ma = .ok a → s.val 1 mb = .ok b → s.dst 2 md = .ok d → s.cfg.fits (a * b) →
    ∃ t, exec (.mul ma mb md) s = .next t ∧ StoredOnly s t d (a * b) ∧ t.pc = s.pc + 4 ∧ t.fp = s.fp ∧
      t.inq = s.inq ∧ t.outq = s.outq ∧ t.status = s.status ∧ SameSurroundings s t

/-- R160: `less-than` writes 1 where the first integer is less than the second, else 0. -/
def Obligations.LessThanCompletes : Prop :=
  ∀ (ma mb md : Mode) (s : State) (a b : Int) (d : Nat),
    s.val 0 ma = .ok a → s.val 1 mb = .ok b → s.dst 2 md = .ok d →
    ∃ t, exec (.lessThan ma mb md) s = .next t ∧ StoredOnly s t d (if a < b then 1 else 0) ∧
      t.pc = s.pc + 4 ∧ t.fp = s.fp ∧ t.inq = s.inq ∧ t.outq = s.outq ∧ t.status = s.status ∧
      SameSurroundings s t

/-- R161: `equals` writes 1 where the two integers are equal, else 0. -/
def Obligations.EqualsCompletes : Prop :=
  ∀ (ma mb md : Mode) (s : State) (a b : Int) (d : Nat),
    s.val 0 ma = .ok a → s.val 1 mb = .ok b → s.dst 2 md = .ok d →
    ∃ t, exec (.equals ma mb md) s = .next t ∧ StoredOnly s t d (if a = b then 1 else 0) ∧
      t.pc = s.pc + 4 ∧ t.fp = s.fp ∧ t.inq = s.inq ∧ t.outq = s.outq ∧ t.status = s.status ∧
      SameSurroundings s t

/-- R140: `input` with a value there removes the oldest element of INQ and writes it. -/
def Obligations.InputCompletes : Prop :=
  ∀ (md : Mode) (s : State) (v : Int) (q : List Int) (d : Nat),
    s.inq = v :: q → s.dst 0 md = .ok d →
    ∃ t, exec (.input md) s = .next t ∧ StoredOnly s t d v ∧ t.inq = q ∧ t.pc = s.pc + 2 ∧ t.fp = s.fp ∧
      t.outq = s.outq ∧ t.status = s.status ∧ SameSurroundings s t

/-- R140: `input` on an empty INQ suspends with NeedsInput, whatever its operand is, and changes nothing else. -/
def Obligations.InputSuspendsOnAnEmptyQueue : Prop :=
  ∀ (md : Mode) (s : State), s.inq = [] →
    exec (.input md) s = .next { s with status := .interrupted .needsInput }

/-- R141: `output` appends the value to OUTQ, advances pc, and yields ProducedOutput. -/
def Obligations.OutputCompletes : Prop :=
  ∀ (ma : Mode) (s : State) (a : Int), s.val 0 ma = .ok a →
    exec (.output ma) s =
      .next { s with outq := s.outq ++ [a], pc := s.pc + 2, status := .interrupted .producedOutput }

/-- R150: `jump-if-true` goes to the value of its second operand when the first is not 0, else on; only pc
changes. -/
def Obligations.JumpIfTrueCompletes : Prop :=
  ∀ (ma mt : Mode) (s : State) (a t : Int), s.val 0 ma = .ok a → s.val 1 mt = .ok t →
    (a ≠ 0 → 0 ≤ t → exec (.jumpIfTrue ma mt) s = .next { s with pc := t.toNat }) ∧
    (a = 0 → exec (.jumpIfTrue ma mt) s = .next { s with pc := s.pc + 3 })

/-- R151: `jump-if-false` goes to the value of its second operand when the first is 0, else on; only pc
changes. -/
def Obligations.JumpIfFalseCompletes : Prop :=
  ∀ (ma mt : Mode) (s : State) (a t : Int), s.val 0 ma = .ok a → s.val 1 mt = .ok t →
    (a = 0 → 0 ≤ t → exec (.jumpIfFalse ma mt) s = .next { s with pc := t.toNat }) ∧
    (a ≠ 0 → exec (.jumpIfFalse ma mt) s = .next { s with pc := s.pc + 3 })

/-- R170: `adjust-base` adds the value to fp; only fp and pc change. -/
def Obligations.AdjustBaseCompletes : Prop :=
  ∀ (ma : Mode) (s : State) (a : Int), s.val 0 ma = .ok a → s.cfg.fits (s.fp + a) →
    exec (.adjustBase ma) s = .next { s with fp := s.fp + a, pc := s.pc + 2 }

/-- R175: `halt` sets STATE to Halted and changes nothing else, pc included, in every state. -/
def Obligations.HaltCompletes : Prop :=
  ∀ s : State, exec .halt s = .next { s with status := .halted }

/-! ### Fatal conditions of the instructions -/

/-- R203, point 5, for `add`, `mul`, `less-than` and `equals`: the first operand that cannot be resolved gives
the fatal condition, and nothing but STATE changes. -/
def Obligations.ThreeOperandFaultOrder : Prop :=
  ∀ (ma mb md : Mode) (s : State) (i : Instr),
    i ∈ [Instr.add ma mb md, .mul ma mb md, .lessThan ma mb md, .equals ma mb md] →
    (∀ c, s.val 0 ma = .error c → exec i s = .next { s with status := .faulted c }) ∧
    (∀ a c, s.val 0 ma = .ok a → s.val 1 mb = .error c →
      exec i s = .next { s with status := .faulted c }) ∧
    (∀ a b c, s.val 0 ma = .ok a → s.val 1 mb = .ok b → s.dst 2 md = .error c →
      exec i s = .next { s with status := .faulted c })

/-- R134: a result of `add`, `mul` or `adjust-base` that does not fit a word is ArithOverflow of its opcode,
and nothing but STATE changes. -/
def Obligations.ArithmeticOverflowIsFatal : Prop :=
  ∀ s : State,
    (∀ ma mb md a b d, s.val 0 ma = .ok a → s.val 1 mb = .ok b → s.dst 2 md = .ok d →
      (¬ s.cfg.fits (a + b) →
        exec (.add ma mb md) s = .next { s with status := .faulted (.arithOverflow 1) }) ∧
      (¬ s.cfg.fits (a * b) →
        exec (.mul ma mb md) s = .next { s with status := .faulted (.arithOverflow 2) })) ∧
    (∀ ma a, s.val 0 ma = .ok a → ¬ s.cfg.fits (s.fp + a) →
      exec (.adjustBase ma) s = .next { s with status := .faulted (.arithOverflow 9) })

/-- R203, points 5 and 6, for the instructions without a destination: an operand that cannot be resolved, also
the target of a jump that would not be taken (decision D32), and the negative target of a jump that is taken
(decision D6). -/
def Obligations.SourceOnlyFaultOrder : Prop :=
  ∀ (ma mt : Mode) (s : State),
    (∀ i c, i ∈ [Instr.output ma, .adjustBase ma, .jumpIfTrue ma mt, .jumpIfFalse ma mt] →
      s.val 0 ma = .error c → exec i s = .next { s with status := .faulted c }) ∧
    (∀ i a c, i ∈ [Instr.jumpIfTrue ma mt, .jumpIfFalse ma mt] → s.val 0 ma = .ok a →
      s.val 1 mt = .error c → exec i s = .next { s with status := .faulted c }) ∧
    (∀ a t, s.val 0 ma = .ok a → s.val 1 mt = .ok t → t < 0 →
      (a ≠ 0 → exec (.jumpIfTrue ma mt) s =
        .next { s with status := .faulted (.addressFault t .jumpTarget) }) ∧
      (a = 0 → exec (.jumpIfFalse ma mt) s =
        .next { s with status := .faulted (.addressFault t .jumpTarget) }))

/-- R140: an `input` whose destination cannot be resolved raises only when a value is there, and leaves the
value in INQ. -/
def Obligations.InputFaultLeavesTheValueQueued : Prop :=
  ∀ (md : Mode) (s : State) (c : FatalCondition), s.inq ≠ [] → s.dst 0 md = .error c →
    exec (.input md) s = .next { s with status := .faulted c }

/-- R202: what each instruction can raise once it is decoded, what a step can raise at all, and what the host's
transactions can raise. -/
def Obligations.ConditionsEachStepCanRaise : Prop :=
  (∀ (i : Instr) (s t : State) (c : FatalCondition), s.status = .running → exec i s = .next t →
    t.status = .faulted c → raisable i c = true) ∧
  (∀ (s t : State) (c : FatalCondition), s.status = .running → coreStep s = .next t →
    t.status = .faulted c →
      (∃ i, s.fetchDecode = .ok i ∧ raisable i c = true) ∨ c = .addressFault (s.pc : Int) .fetch ∨
      c = .illegalOpcode (s.mem.read s.pc) ∨ ∃ k, c = .illegalMode (s.mem.read s.pc) k) ∧
  (∀ (x : Txn) (s t : State) (c : FatalCondition), perform x s = .next t → t.status = .faulted c →
    (∃ text, x = .loadText text ∧ (c = .loadFormat ∨ c = .addressFault s.cfg.memCap .host)) ∨
    (∃ ws, x = .load ws ∧ c = .addressFault s.cfg.memCap .host) ∨
    (∃ a v, x = .poke a v ∧ c = .addressFault a .host) ∨ (∃ a, x = .peek a ∧ c = .addressFault a .host))

/-! ### Steps -/

/-- A step runs the decoded instruction: with nothing asked by the host it is `exec` of what stands at pc; with
a request that is not yet due, the same, the request then waiting for one step less. The host is answered when
the run span ends (R111 to R114, R117; log 5 and 6). -/
def Obligations.StepRunsTheDecodedInstruction : Prop :=
  ∀ (s : State) (i : Instr), s.status = .running → s.pc < s.cfg.memCap →
    decodeWord (s.mem.read s.pc) = .ok i →
    (s.driver.requests = [] → ∀ t, exec i s = .next t →
      step s = .next (if t.status = .running then t else t.answer (.run t.status))) ∧
    (∀ x d rs, s.driver.requests = { txn := x, delay := d } :: rs → d ≠ some 0 →
      ∀ t, exec i (s.setRequests ({ txn := x, delay := d.map (· - 1) } :: rs)) = .next t →
        step s = .next (if t.status = .running then t else t.answer (.run t.status)))

/-- A step performs the host's next request when it is due: the core is not Running, or the request has no
step left to wait for (R196; log 5). -/
def Obligations.StepPerformsTheDueRequest : Prop :=
  ∀ (s : State) (x : Txn) (d : Option Nat) (rs : List Request),
    s.driver.requests = { txn := x, delay := d } :: rs → (s.status ≠ .running ∨ d = some 0) →
    step s = perform x (s.setRequests rs)

/-- Every instruction answers a next state, in every state: none is refused, none stops the machine; a fatal
condition is a next state in which STATE is Faulted (R12, R205; log 4). -/
def Obligations.EveryInstructionAnswersNext : Prop :=
  ∀ (i : Instr) (s : State), ∃ t, exec i s = .next t

/-- R111 and points 1 to 3 of R203: a fetch out of range, and a word the decoder rejects, are fatal conditions
of the step, which changes nothing but STATE. -/
def Obligations.FetchAndDecodeFaults : Prop :=
  ∀ s : State,
    (s.cfg.memCap ≤ s.pc →
      coreStep s = .next { s with status := .faulted (.addressFault (s.pc : Int) .fetch) }) ∧
    (s.pc < s.cfg.memCap →
      (∀ w, decodeWord (s.mem.read s.pc) = .error (.illegalOpcode w) →
        coreStep s = .next { s with status := .faulted (.illegalOpcode w) }) ∧
      (∀ w k, decodeWord (s.mem.read s.pc) = .error (.illegalMode w k) →
        coreStep s = .next { s with status := .faulted (.illegalMode w k) }) ∧
      (∀ i, decodeWord (s.mem.read s.pc) = .ok i → coreStep s = exec i s))

/-- R201, R205: the code and the information of each fatal condition; a step or a transaction that raises
leaves everything as it was but STATE, FCAUSE and FINFO, which are those of its condition; in Faulted no step is
enabled and every transaction but RESET is refused. -/
def Obligations.FatalConditionsArePrecise : Prop :=
  (FatalCondition.loadFormat.code = 1 ∧ FatalCondition.loadFormat.info = .nothing) ∧
  (∀ iw, (FatalCondition.illegalOpcode iw).code = 2 ∧ (FatalCondition.illegalOpcode iw).info = .word iw) ∧
  (∀ a k, (FatalCondition.addressFault a k).code = 3 ∧
    (FatalCondition.addressFault a k).info = .address a k) ∧
  (∀ iw i, (FatalCondition.illegalMode iw i).code = 4 ∧
    (FatalCondition.illegalMode iw i).info = .wordAndOperand iw i) ∧
  (∀ op, (FatalCondition.arithOverflow op).code = 5 ∧
    (FatalCondition.arithOverflow op).info = .opcode op) ∧
  (∀ (s t : State) (c : FatalCondition), s.status = .running → coreStep s = .next t →
    t.status = .faulted c →
    t = { s with status := .faulted c } ∧ t.fcause = some c.code ∧ t.finfo = some c.info) ∧
  (∀ (x : Txn) (s t : State) (c : FatalCondition), perform x s = .next t → t.status = .faulted c →
    t = { s with status := .faulted c } ∧ t.fcause = some c.code ∧ t.finfo = some c.info) ∧
  (∀ (s : State) (c : FatalCondition), s.status = .faulted c →
    (∀ t, coreTurn s ≠ .next t) ∧
    ∀ x, x ≠ .reset → perform x s = .refused (.transactionRefused x s.status))

/-- R116: STATE changes only as the table of transitions says. -/
def Obligations.StateChangesOnlyByTheTable : Prop :=
  ∀ s t : State, step s = .next t → t.status = s.status ∨ Transition s.status t.status

/-- R115: pc after a step, by outcome; a fatal condition of the fetch or the decode is among them. -/
def Obligations.PcAfterAStep : Prop :=
  ∀ s t : State, s.status = .running → coreStep s = .next t →
    (∀ c, t.status = .faulted c → t.pc = s.pc) ∧
    ∀ i, s.fetchDecode = .ok i → (∀ c, t.status ≠ .faulted c) →
      (∀ a b d, i ∈ [Instr.add a b d, .mul a b d, .lessThan a b d, .equals a b d] → t.pc = s.pc + 4) ∧
      (∀ d, i = .input d → (s.inq ≠ [] → t.pc = s.pc + 2) ∧ (s.inq = [] → t.pc = s.pc)) ∧
      (∀ a, i = .output a → t.pc = s.pc + 2) ∧
      (∀ ma mt, i = .jumpIfTrue ma mt → ∃ a v, s.val 0 ma = .ok a ∧ s.val 1 mt = .ok v ∧
        (a ≠ 0 → (t.pc : Int) = v) ∧ (a = 0 → t.pc = s.pc + 3)) ∧
      (∀ ma mt, i = .jumpIfFalse ma mt → ∃ a v, s.val 0 ma = .ok a ∧ s.val 1 mt = .ok v ∧
        (a = 0 → (t.pc : Int) = v) ∧ (a ≠ 0 → t.pc = s.pc + 3)) ∧
      (∀ a, i = .adjustBase a → t.pc = s.pc + 2) ∧
      (i = .halt → t.pc = s.pc)

/-- R25: of the core's steps only `adjust-base` changes fp; of the host's transactions only RESET. -/
def Obligations.FpChangesOnlyByAdjustBase : Prop :=
  (∀ s t : State, coreStep s = .next t → t.fp ≠ s.fp → ∃ m, s.fetchDecode = .ok (.adjustBase m)) ∧
    ∀ (x : Txn) (s t : State), perform x s = .next t → t.fp ≠ s.fp → x = .reset

/-- R62, R63: of all of memory, an instruction changes at most the cell at its destination, the address computed
from the state it began in; an instruction without a destination changes none. -/
def Obligations.MemoryChangesOnlyAtTheDestination : Prop :=
  ∀ (i : Instr) (s t : State), exec i s = .next t →
    (i.destination = none → SameMemory s t) ∧
    (∀ k m, i.destination = some (k, m) →
      (∀ d, s.dst k m = .ok d → ∀ x, x ≠ d → t.mem.read x = s.mem.read x) ∧
      (∀ c, s.dst k m = .error c → SameMemory s t))

/-- R28, R143: only `input` takes from INQ, at most its oldest element; only `output` adds to OUTQ, its value as
the newest; no instruction touches the parameters or the host's lists. -/
def Obligations.QueuesChangeOnlyByInputAndOutput : Prop :=
  ∀ (i : Instr) (s t : State), exec i s = .next t →
    (t.inq = s.inq ∨ ∃ md v, i = .input md ∧ s.inq = v :: t.inq) ∧
    (t.outq = s.outq ∨ ∃ ma v, i = .output ma ∧ s.val 0 ma = .ok v ∧ t.outq = s.outq ++ [v]) ∧
    SameSurroundings s t

/-- R71: what an instruction writes over the instruction word that follows it is what the next fetch reads, for
every instruction that has a destination. -/
def Obligations.StoreIsSeenByTheNextFetch : Prop :=
  (∀ (ma mb md : Mode) (s : State) (a b : Int),
    s.val 0 ma = .ok a → s.val 1 mb = .ok b → s.dst 2 md = .ok (s.pc + 4) →
    (s.cfg.fits (a + b) → ∃ t, exec (.add ma mb md) s = .next t ∧ t.fetch = .ok (a + b)) ∧
    (s.cfg.fits (a * b) → ∃ t, exec (.mul ma mb md) s = .next t ∧ t.fetch = .ok (a * b)) ∧
    (∃ t, exec (.lessThan ma mb md) s = .next t ∧ t.fetch = .ok (if a < b then 1 else 0)) ∧
    ∃ t, exec (.equals ma mb md) s = .next t ∧ t.fetch = .ok (if a = b then 1 else 0)) ∧
  ∀ (md : Mode) (s : State) (v : Int) (q : List Int),
    s.inq = v :: q → s.dst 0 md = .ok (s.pc + 2) →
    ∃ t, exec (.input md) s = .next t ∧ t.fetch = .ok v

/-! ### Run spans -/

/-- R119: however many steps a run span takes, it adds to OUTQ nothing while it runs and exactly one value when
it ends with ProducedOutput, and nothing when it ends otherwise. -/
def Obligations.OneOutputPerRunSpan : Prop :=
  ∀ (n : Nat) (s t : State), s.status = .running → runLoop n s = .next t →
    (t.status = .interrupted .producedOutput ∧ ∃ v, t.outq = s.outq ++ [v]) ∨
    (t.status ≠ .interrupted .producedOutput ∧ t.outq = s.outq)

/-- R120: a RUN of an engine blocked for input, with INQ still empty, re-attempts the same `input` and leaves
every component as it was. -/
def Obligations.BlockedRunChangesNothing : Prop :=
  ∀ (s : State) (md : Mode), s.status = .interrupted .needsInput → s.inq = [] →
    s.fetchDecode = .ok (.input md) →
    ∃ r, perform .run s = .next r ∧ coreStep r = .next s

/-- Any number of RUNs asked of a blocked engine, each waiting for the core to stop: twice as many steps of the
machine later it is where it was, and each RUN has been answered NeedsInput (R120; the host's lists are the
model's, log 5 and 6). -/
def Obligations.BlockedRunsAreAllAnsweredNeedsInput : Prop :=
  ∀ (n : Nat) (s : State) (md : Mode), s.status = .interrupted .needsInput → s.inq = [] →
    s.fetchDecode = .ok (.input md) →
    s.driver.requests = List.replicate n { txn := .run, delay := none } →
    Host.Core.run Sys2Proof.core (2 * n) s = .next { s with driver :=
      { requests := [], replies := s.driver.replies ++ List.replicate n (.run (.interrupted .needsInput)) } }

/-- R196: while the core runs and INQ is not empty, it makes no difference to a step whether an IN_PUSH comes
before it or after it. -/
def Obligations.InPushCommutesWithAStep : Prop :=
  ∀ (s t : State) (v : Int), s.inq ≠ [] → coreStep s = .next t →
    coreStep (s.pushIn v) = .next (t.pushIn v)

/-- R28, R143: what a step does never depends on OUTQ: with any other OUTQ it does the same and adds the same
values. -/
def Obligations.OutputQueueIsInvisibleToTheProgram : Prop :=
  ∀ s t : State, coreStep s = .next t → ∃ new, t.outq = s.outq ++ new ∧
    ∀ q, coreStep { s with outq := q } = .next { t with outq := q ++ new }

/-! ### The host's transactions -/

/-- R182: LOAD writes the image from address 0, enters Ready, and leaves every other address and all the rest;
more words than memory holds are AddressFault(MEM_CAP, Host), and only STATE changes (R205); no words are
refused (log 7). -/
def Obligations.LoadOutcomes : Prop :=
  ∀ (s : State) (ws : List Int), s.status = .booting →
    (s.cfg.ImageWellFormed ws → ∃ t, perform (.load ws) s = .next t ∧
      (∀ x, t.mem.read x = if x < ws.length then ws.getD x 0 else s.mem.read x) ∧
      t.status = .ready ∧ t.pc = s.pc ∧ t.fp = s.fp ∧ t.inq = s.inq ∧ t.outq = s.outq ∧
      SameSurroundings s t) ∧
    (ws ≠ [] → (∀ v ∈ ws, s.cfg.fits v) → s.cfg.memCap < ws.length →
      perform (.load ws) s = .next { s with status := .faulted (.addressFault s.cfg.memCap .host) }) ∧
    (ws = [] → perform (.load ws) s = .refused .emptyLoad)

/-- R97: the parser accepts exactly the texts of the grammar whose integers are all words, and gives their
values. -/
def Obligations.ParserAcceptsExactlyTheGrammar : Prop :=
  ∀ (cfg : Config) (text : List Char) (ws : List Int),
    parseText cfg text = some ws ↔ IsText text ws ∧ ∀ v ∈ ws, cfg.fits v

/-- R98, R183: the load of a text is LoadFormat where the grammar does not accept the text, else the LOAD of
its words. -/
def Obligations.LoadOfATextIsLoadOfItsWords : Prop :=
  ∀ (s : State) (text : List Char), s.status = .booting →
    ((¬ ∃ ws, IsText text ws ∧ ∀ v ∈ ws, s.cfg.fits v) →
      perform (.loadText text) s = .next { s with status := .faulted .loadFormat }) ∧
    (∀ ws, IsText text ws → (∀ v ∈ ws, s.cfg.fits v) →
      perform (.loadText text) s = perform (.load ws) s)

/-- R99: after the load of a text into a Computer that has just been reset, PEEK answers its integers at the
addresses it has, and 0 at every other address of memory. -/
def Obligations.LoadedTextReadsBack : Prop :=
  ∀ (s : State) (text : List Char) (ws : List Int), s.status = .booting → s.BootInv →
    IsText text ws → s.cfg.ImageWellFormed ws →
    ∃ t, perform (.loadText text) s = .next t ∧
      ∀ a : Nat, a < s.cfg.memCap → perform (.peek (a : Int)) t = .next (t.answer (.peek (ws.getD a 0)))

/-- R184: POKE writes one cell and changes nothing else; out of range it is AddressFault(addr, Host). -/
def Obligations.PokeOutcomes : Prop :=
  ∀ (s : State) (addr : Int) (v : Int),
    (s.status = .ready ∨ (∃ r, s.status = .interrupted r) ∨ s.status = .halted) → s.cfg.fits v →
    (0 ≤ addr → addr < (s.cfg.memCap : Int) → ∃ t, perform (.poke addr v) s = .next t ∧
      StoredOnly s t addr.toNat v ∧ t.pc = s.pc ∧ t.fp = s.fp ∧ t.inq = s.inq ∧ t.outq = s.outq ∧
      t.status = s.status ∧ SameSurroundings s t) ∧
    (addr < 0 ∨ (s.cfg.memCap : Int) ≤ addr →
      perform (.poke addr v) s = .next { s with status := .faulted (.addressFault addr .host) })

/-- R185: PEEK answers the word at an address and changes nothing (the answer stands in the host's list,
log 5); out of range it is AddressFault(addr, Host). -/
def Obligations.PeekOutcomes : Prop :=
  ∀ (s : State) (addr : Int),
    (s.status = .ready ∨ (∃ r, s.status = .interrupted r) ∨ s.status = .halted) →
    (0 ≤ addr → addr < (s.cfg.memCap : Int) →
      perform (.peek addr) s = .next { s with driver :=
        { s.driver with replies := s.driver.replies ++ [.peek (s.mem.read addr.toNat)] } }) ∧
    (addr < 0 ∨ (s.cfg.memCap : Int) ≤ addr →
      perform (.peek addr) s = .next { s with status := .faulted (.addressFault addr .host) })

/-- R187: IN_PUSH makes the value the newest element of INQ, in every STATE but Faulted, and changes nothing
else, STATE included: it does not wake the engine; in Faulted it is refused. -/
def Obligations.InPushAppendsToInq : Prop :=
  ∀ (s : State) (v : Int), s.cfg.fits v →
    ((∀ c, s.status ≠ .faulted c) → perform (.inPush v) s = .next { s with inq := s.inq ++ [v] }) ∧
    (∀ c, s.status = .faulted c →
      perform (.inPush v) s = .refused (.transactionRefused (.inPush v) s.status))

/-- R188: OUT_POP removes and answers the oldest element of OUTQ; on an empty OUTQ it answers None and changes
nothing (the answer stands in the host's list, log 5). -/
def Obligations.OutPopTakesTheOldest : Prop :=
  ∀ s : State, (∀ c, s.status ≠ .faulted c) →
    (∀ v q, s.outq = v :: q → perform .outPop s = .next { s with outq := q, driver :=
      { s.driver with replies := s.driver.replies ++ [.outPop (some v)] } }) ∧
    (s.outq = [] → perform .outPop s = .next { s with driver :=
      { s.driver with replies := s.driver.replies ++ [.outPop none] } })

/-- R190, R210: RUN in Ready and in Interrupted sets STATE to Running and changes nothing else: nothing is
restored, because nothing was saved. -/
def Obligations.RunResumesTheEngine : Prop :=
  ∀ s : State, (s.status = .ready ∨ ∃ r, s.status = .interrupted r) →
    perform .run s = .next { s with status := .running }

/-- R195: the table of legality, row by row. -/
def Obligations.TransactionsRefusedByTheTable : Prop :=
  ∀ (s : State),
    perform .reset s ≠ .refused (.transactionRefused .reset s.status) ∧
    (∀ ws, perform (.load ws) s = .refused (.transactionRefused (.load ws) s.status) ↔
      s.status ≠ .booting) ∧
    (∀ text, perform (.loadText text) s = .refused (.transactionRefused (.loadText text) s.status) ↔
      s.status ≠ .booting) ∧
    (∀ a v, perform (.poke a v) s = .refused (.transactionRefused (.poke a v) s.status) ↔
      s.status = .booting ∨ s.status = .running ∨ ∃ c, s.status = .faulted c) ∧
    (∀ a, perform (.peek a) s = .refused (.transactionRefused (.peek a) s.status) ↔
      s.status = .booting ∨ s.status = .running ∨ ∃ c, s.status = .faulted c) ∧
    (∀ v, perform (.inPush v) s = .refused (.transactionRefused (.inPush v) s.status) ↔
      ∃ c, s.status = .faulted c) ∧
    (perform .outPop s = .refused (.transactionRefused .outPop s.status) ↔ ∃ c, s.status = .faulted c) ∧
    (perform .run s = .refused (.transactionRefused .run s.status) ↔
      s.status = .booting ∨ s.status = .running ∨ s.status = .halted ∨ ∃ c, s.status = .faulted c)

/-! ### Several Computers -/

/-- R198: in any system, the host moves the oldest value of one Computer's OUTQ to the end of another's INQ, by
OUT_POP and IN_PUSH; from an empty OUTQ it moves nothing. Nothing else of any Computer changes, but that the host
of the first has been answered. `b` is the receiver as OUT_POP left it, so that a Computer may hand a value to
itself (log 16). -/
def Obligations.HandOffMovesTheOldestValue : Prop :=
  ∀ (i j : Nat) (sys : System) (a : State), sys[i]? = some a → (∀ c, a.status ≠ .faulted c) →
    (∀ (v : Int) (q : List Int) (b : State), a.outq = v :: q →
      (sys.set i ((a.setOutq q).answer (.outPop (some v))))[j]? = some b → b.cfg.fits v →
      (∀ c, b.status ≠ .faulted c) →
      System.handOff i j sys =
        some ((sys.set i ((a.setOutq q).answer (.outPop (some v)))).set j (b.pushIn v))) ∧
    (a.outq = [] → System.handOff i j sys = some (sys.set i (a.answer (.outPop none))))

/-- R35, R75: what each Computer of a system does in a schedule of turns is what it does alone in as many steps
as it has turns, whatever the others do and however the turns are interleaved (log 16). -/
def Obligations.ComputersAreIndependent : Prop :=
  ∀ (ks : List Nat) (sys sys' : System), System.run ks sys = some sys' →
    sys'.length = sys.length ∧
    ∀ (j : Nat) (s : State), sys[j]? = some s → ∃ t, sys'[j]? = some t ∧
      Host.Core.run Sys2Proof.core (ks.count j) s = .next t
end

