-- ==== Sys2Proof/Laws/Memory.lean ====
section
/-! SUPPORT. The laws of memory: a read after a write, the canonical form kept by every operation, the range of
the cells kept by every operation. -/

namespace Sys2Proof.Machine

open Sys2Proof

@[simp] theorem Memory.read_nil (a : Nat) : Memory.read [] a = 0 := rfl

theorem Memory.read_erase (m : Memory) (a x : Nat) :
    (m.erase a).read x = if x = a then 0 else m.read x := by
  induction m with
  | nil => simp [Memory.erase, Memory.read]
  | cons c m ih =>
    unfold Memory.erase at ih ⊢
    by_cases hc : c.1 = a
    · rw [List.filter_cons_of_neg (by simpa using hc), ih]
      by_cases hx : x = a
      · simp [hx]
      · rw [if_neg hx, if_neg hx, Memory.read, if_neg (by omega)]
    · rw [List.filter_cons_of_pos (by simpa using hc), Memory.read, Memory.read, ih]
      by_cases hcx : c.1 = x
      · rw [if_pos hcx, if_pos hcx, if_neg (by omega)]
      · rw [if_neg hcx, if_neg hcx]

theorem Memory.read_insert (m : Memory) (a : Nat) (v : Int) (x : Nat) (h : ∀ c ∈ m, c.1 ≠ a) :
    (m.insert a v).read x = if x = a then v else m.read x := by
  induction m with
  | nil => by_cases hx : x = a <;> simp [Memory.insert, Memory.read, hx, Ne.symm]
  | cons c m ih =>
    have hc : c.1 ≠ a := h c (by simp)
    unfold Memory.insert
    split
    · by_cases hx : x = a
      · simp [Memory.read, hx]
      · rw [Memory.read, if_neg (fun e => hx e.symm), if_neg hx]
    · rw [Memory.read, Memory.read, ih (fun d hd => h d (by simp [hd]))]
      by_cases hcx : c.1 = x
      · rw [if_pos hcx, if_pos hcx, if_neg (by omega)]
      · rw [if_neg hcx, if_neg hcx]

theorem Memory.mem_erase (m : Memory) (a : Nat) (c : Nat × Int) :
    c ∈ m.erase a ↔ c ∈ m ∧ c.1 ≠ a := by
  simp [Memory.erase]

theorem Memory.mem_insert (m : Memory) (a : Nat) (v : Int) (c : Nat × Int) :
    c ∈ m.insert a v ↔ c = (a, v) ∨ c ∈ m := by
  induction m with
  | nil => simp [Memory.insert]
  | cons d m ih =>
    unfold Memory.insert
    split
    · simp
    · simp only [List.mem_cons, ih]; tauto

/-- A read after a write: the value at the address written, the old word everywhere else. It holds of every
memory, canonical or not. -/
theorem Memory.read_write (m : Memory) (a : Nat) (v : Int) (x : Nat) :
    (m.write a v).read x = if x = a then v else m.read x := by
  unfold Memory.write
  split
  · rename_i hv; rw [Memory.read_erase, hv]
  · rw [Memory.read_insert _ _ _ _ (fun c hc => ((Memory.mem_erase m a c).1 hc).2), Memory.read_erase]
    split <;> rfl

theorem Memory.mem_write (m : Memory) (a : Nat) (v : Int) (c : Nat × Int) (h : c ∈ m.write a v) :
    c = (a, v) ∧ v ≠ 0 ∨ c ∈ m := by
  unfold Memory.write at h
  split at h
  · right; exact ((Memory.mem_erase m a c).1 h).1
  · rename_i hv
    rcases (Memory.mem_insert _ _ _ _).1 h with h | h
    · exact .inl ⟨h, hv⟩
    · exact .inr ((Memory.mem_erase m a c).1 h).1

theorem Memory.insert_sorted (m : Memory) (a : Nat) (v : Int)
    (hm : m.Pairwise (fun c d => c.1 < d.1)) (h : ∀ c ∈ m, c.1 ≠ a) :
    (m.insert a v).Pairwise (fun c d => c.1 < d.1) := by
  induction m with
  | nil => simp [Memory.insert]
  | cons c m ih =>
    rw [List.pairwise_cons] at hm
    unfold Memory.insert
    split
    · rename_i hac
      rw [List.pairwise_cons, List.pairwise_cons]
      refine ⟨fun d hd => ?_, hm⟩
      rcases List.mem_cons.1 hd with hd | hd
      · rw [hd]; exact hac
      · exact lt_trans hac (hm.1 d hd)
    · rename_i hac
      rw [List.pairwise_cons]
      refine ⟨fun d hd => ?_, ih hm.2 (fun d hd => h d (by simp [hd]))⟩
      rcases (Memory.mem_insert m a v d).1 hd with hd | hd
      · have := h c (by simp)
        rw [hd]
        show c.1 < a
        omega
      · exact hm.1 d hd

/-- A write keeps the canonical form. -/
theorem Memory.write_wf (m : Memory) (a : Nat) (v : Int) (hm : m.wf) : (m.write a v).wf := by
  refine ⟨?_, fun c hc => ?_⟩
  · unfold Memory.write
    split
    · exact hm.1.filter _
    · exact Memory.insert_sorted _ _ _ (hm.1.filter _) (fun c hc => ((Memory.mem_erase m a c).1 hc).2)
  · rcases Memory.mem_write m a v c hc with ⟨rfl, hv⟩ | hc
    · exact hv
    · exact hm.2 c hc

/-- A write of a word within memory keeps every cell in range. -/
theorem Memory.write_inRange (cfg : Config) (m : Memory) (a : Nat) (v : Int) (hm : m.inRange cfg)
    (ha : a < cfg.memCap) (hv : cfg.fits v) : (m.write a v).inRange cfg := by
  intro c hc
  rcases Memory.mem_write m a v c hc with ⟨rfl, _⟩ | hc
  · exact ⟨ha, hv⟩
  · exact hm c hc

/-- Consecutive writes keep the canonical form. -/
theorem Memory.writeAll_wf (ws : List Int) (m : Memory) (a : Nat) (hm : m.wf) : (m.writeAll a ws).wf := by
  induction ws generalizing m a with
  | nil => exact hm
  | cons v vs ih => exact ih (m.write a v) (a + 1) (Memory.write_wf m a v hm)

/-- Consecutive writes of words within memory keep every cell in range. -/
theorem Memory.writeAll_inRange (cfg : Config) (ws : List Int) (m : Memory) (a : Nat)
    (hm : m.inRange cfg) (ha : a + ws.length ≤ cfg.memCap) (hv : ∀ v ∈ ws, cfg.fits v) :
    (m.writeAll a ws).inRange cfg := by
  induction ws generalizing m a with
  | nil => exact hm
  | cons v vs ih =>
    rw [List.length_cons] at ha
    exact ih (m.write a v) (a + 1)
      (Memory.write_inRange cfg m a v hm (by omega) (hv v (by simp))) (by omega)
      (fun w hw => hv w (by simp [hw]))

/-- A read after consecutive writes: the words written from `a` upwards, the old word everywhere else. -/
theorem Memory.read_writeAll (ws : List Int) (m : Memory) (a x : Nat) :
    (m.writeAll a ws).read x = if a ≤ x ∧ x < a + ws.length then ws.getD (x - a) 0 else m.read x := by
  induction ws generalizing m a with
  | nil =>
    rw [if_neg (by simp)]
    rfl
  | cons v vs ih =>
    rw [Memory.writeAll, ih, Memory.read_write, List.length_cons]
    by_cases h1 : x = a
    · subst h1
      rw [if_neg (by omega), if_pos rfl, if_pos (by omega)]
      simp
    · by_cases h2 : a ≤ x ∧ x < a + (vs.length + 1)
      · obtain ⟨k, rfl⟩ : ∃ k, x = a + 1 + k := ⟨x - (a + 1), by omega⟩
        rw [if_pos (by omega), if_pos h2, show a + 1 + k - (a + 1) = k by omega,
          show a + 1 + k - a = k + 1 by omega, List.getD_cons_succ]
      · rw [if_neg (by omega), if_neg h1, if_neg h2]

/-- A cell of a canonical memory is what its address reads as. -/
theorem Memory.read_of_mem (m : Memory) (hm : m.Pairwise (fun c d => c.1 < d.1)) (c : Nat × Int)
    (hc : c ∈ m) : m.read c.1 = c.2 := by
  induction m with
  | nil => simp at hc
  | cons d m ih =>
    rw [List.pairwise_cons] at hm
    rcases List.mem_cons.1 hc with rfl | hc
    · simp [Memory.read]
    · rw [Memory.read, if_neg (by have := hm.1 c hc; omega), ih hm.2 hc]

/-- An address reads 0 or is listed with what it reads as. -/
theorem Memory.read_mem (m : Memory) (a : Nat) : m.read a = 0 ∨ (a, m.read a) ∈ m := by
  induction m with
  | nil => left; rfl
  | cons d m ih =>
    rw [Memory.read]
    split
    · rename_i h; right; rw [← h]; simp
    · rcases ih with h | h
      · exact .inl h
      · exact .inr (by simp [h])

/-- A read of a memory of words is a word. -/
theorem Memory.read_fits (cfg : Config) (m : Memory) (hm : m.inRange cfg) (h0 : cfg.fits 0) (a : Nat) :
    cfg.fits (m.read a) := by
  rcases Memory.read_mem m a with h | h
  · rw [h]; exact h0
  · exact (hm _ h).2

/-- Reset memory is canonical. -/
theorem Memory.reset_wf : State.reset.mem.wf := by
  constructor <;> simp [State.reset, State.resetOf]

/-- Zero is a word of every width. -/
theorem fits_zero (cfg : Config) : cfg.fits 0 := by
  have : (1 : Int) ≤ ((2 ^ (cfg.wordBits - 1) : Nat) : Int) := by exact_mod_cast Nat.one_le_two_pow
  constructor
  · show minOfBits cfg.wordBits ≤ 0
    unfold minOfBits; omega
  · show 0 ≤ maxOfBits cfg.wordBits
    unfold maxOfBits; omega

end Sys2Proof.Machine
end

