-- ==== Sys2Proof/Laws/State.lean ====
section
/-! SUPPORT. What each update of State does to each field, one lemma a field, so that no later proof unfolds a
record update. -/

namespace Sys2Proof.Machine

open Sys2Proof

variable (s : State)

/-! ### `store` -/

@[simp] theorem State.store_cfg (a : Nat) (v : Int) : (s.store a v).cfg = s.cfg := rfl
@[simp] theorem State.store_mem (a : Nat) (v : Int) : (s.store a v).mem = s.mem.write a v := rfl
@[simp] theorem State.store_pc (a : Nat) (v : Int) : (s.store a v).pc = s.pc := rfl
@[simp] theorem State.store_fp (a : Nat) (v : Int) : (s.store a v).fp = s.fp := rfl
@[simp] theorem State.store_inq (a : Nat) (v : Int) : (s.store a v).inq = s.inq := rfl
@[simp] theorem State.store_outq (a : Nat) (v : Int) : (s.store a v).outq = s.outq := rfl
@[simp] theorem State.store_status (a : Nat) (v : Int) : (s.store a v).status = s.status := rfl
@[simp] theorem State.store_driver (a : Nat) (v : Int) : (s.store a v).driver = s.driver := rfl

/-! ### `jump` -/

@[simp] theorem State.jump_cfg (a : Nat) : (s.jump a).cfg = s.cfg := rfl
@[simp] theorem State.jump_mem (a : Nat) : (s.jump a).mem = s.mem := rfl
@[simp] theorem State.jump_pc (a : Nat) : (s.jump a).pc = a := rfl
@[simp] theorem State.jump_fp (a : Nat) : (s.jump a).fp = s.fp := rfl
@[simp] theorem State.jump_inq (a : Nat) : (s.jump a).inq = s.inq := rfl
@[simp] theorem State.jump_outq (a : Nat) : (s.jump a).outq = s.outq := rfl
@[simp] theorem State.jump_status (a : Nat) : (s.jump a).status = s.status := rfl
@[simp] theorem State.jump_driver (a : Nat) : (s.jump a).driver = s.driver := rfl

/-! ### `advance` -/

@[simp] theorem State.advance_cfg (n : Nat) : (s.advance n).cfg = s.cfg := rfl
@[simp] theorem State.advance_mem (n : Nat) : (s.advance n).mem = s.mem := rfl
@[simp] theorem State.advance_pc (n : Nat) : (s.advance n).pc = s.pc + n := rfl
@[simp] theorem State.advance_fp (n : Nat) : (s.advance n).fp = s.fp := rfl
@[simp] theorem State.advance_inq (n : Nat) : (s.advance n).inq = s.inq := rfl
@[simp] theorem State.advance_outq (n : Nat) : (s.advance n).outq = s.outq := rfl
@[simp] theorem State.advance_status (n : Nat) : (s.advance n).status = s.status := rfl
@[simp] theorem State.advance_driver (n : Nat) : (s.advance n).driver = s.driver := rfl

/-! ### `setFp` -/

@[simp] theorem State.setFp_cfg (v : Int) : (s.setFp v).cfg = s.cfg := rfl
@[simp] theorem State.setFp_mem (v : Int) : (s.setFp v).mem = s.mem := rfl
@[simp] theorem State.setFp_pc (v : Int) : (s.setFp v).pc = s.pc := rfl
@[simp] theorem State.setFp_fp (v : Int) : (s.setFp v).fp = v := rfl
@[simp] theorem State.setFp_inq (v : Int) : (s.setFp v).inq = s.inq := rfl
@[simp] theorem State.setFp_outq (v : Int) : (s.setFp v).outq = s.outq := rfl
@[simp] theorem State.setFp_status (v : Int) : (s.setFp v).status = s.status := rfl
@[simp] theorem State.setFp_driver (v : Int) : (s.setFp v).driver = s.driver := rfl

/-! ### `setInq` -/

@[simp] theorem State.setInq_cfg (q : List Int) : (s.setInq q).cfg = s.cfg := rfl
@[simp] theorem State.setInq_mem (q : List Int) : (s.setInq q).mem = s.mem := rfl
@[simp] theorem State.setInq_pc (q : List Int) : (s.setInq q).pc = s.pc := rfl
@[simp] theorem State.setInq_fp (q : List Int) : (s.setInq q).fp = s.fp := rfl
@[simp] theorem State.setInq_inq (q : List Int) : (s.setInq q).inq = q := rfl
@[simp] theorem State.setInq_outq (q : List Int) : (s.setInq q).outq = s.outq := rfl
@[simp] theorem State.setInq_status (q : List Int) : (s.setInq q).status = s.status := rfl
@[simp] theorem State.setInq_driver (q : List Int) : (s.setInq q).driver = s.driver := rfl

/-! ### `pushIn` -/

@[simp] theorem State.pushIn_cfg (v : Int) : (s.pushIn v).cfg = s.cfg := rfl
@[simp] theorem State.pushIn_mem (v : Int) : (s.pushIn v).mem = s.mem := rfl
@[simp] theorem State.pushIn_pc (v : Int) : (s.pushIn v).pc = s.pc := rfl
@[simp] theorem State.pushIn_fp (v : Int) : (s.pushIn v).fp = s.fp := rfl
@[simp] theorem State.pushIn_inq (v : Int) : (s.pushIn v).inq = s.inq ++ [v] := rfl
@[simp] theorem State.pushIn_outq (v : Int) : (s.pushIn v).outq = s.outq := rfl
@[simp] theorem State.pushIn_status (v : Int) : (s.pushIn v).status = s.status := rfl
@[simp] theorem State.pushIn_driver (v : Int) : (s.pushIn v).driver = s.driver := rfl

/-! ### `pushOut` -/

@[simp] theorem State.pushOut_cfg (v : Int) : (s.pushOut v).cfg = s.cfg := rfl
@[simp] theorem State.pushOut_mem (v : Int) : (s.pushOut v).mem = s.mem := rfl
@[simp] theorem State.pushOut_pc (v : Int) : (s.pushOut v).pc = s.pc := rfl
@[simp] theorem State.pushOut_fp (v : Int) : (s.pushOut v).fp = s.fp := rfl
@[simp] theorem State.pushOut_inq (v : Int) : (s.pushOut v).inq = s.inq := rfl
@[simp] theorem State.pushOut_outq (v : Int) : (s.pushOut v).outq = s.outq ++ [v] := rfl
@[simp] theorem State.pushOut_status (v : Int) : (s.pushOut v).status = s.status := rfl
@[simp] theorem State.pushOut_driver (v : Int) : (s.pushOut v).driver = s.driver := rfl

/-! ### `setOutq` -/

@[simp] theorem State.setOutq_cfg (q : List Int) : (s.setOutq q).cfg = s.cfg := rfl
@[simp] theorem State.setOutq_mem (q : List Int) : (s.setOutq q).mem = s.mem := rfl
@[simp] theorem State.setOutq_pc (q : List Int) : (s.setOutq q).pc = s.pc := rfl
@[simp] theorem State.setOutq_fp (q : List Int) : (s.setOutq q).fp = s.fp := rfl
@[simp] theorem State.setOutq_inq (q : List Int) : (s.setOutq q).inq = s.inq := rfl
@[simp] theorem State.setOutq_outq (q : List Int) : (s.setOutq q).outq = q := rfl
@[simp] theorem State.setOutq_status (q : List Int) : (s.setOutq q).status = s.status := rfl
@[simp] theorem State.setOutq_driver (q : List Int) : (s.setOutq q).driver = s.driver := rfl

/-! ### `setStatus` -/

@[simp] theorem State.setStatus_cfg (st : ExecState) : (s.setStatus st).cfg = s.cfg := rfl
@[simp] theorem State.setStatus_mem (st : ExecState) : (s.setStatus st).mem = s.mem := rfl
@[simp] theorem State.setStatus_pc (st : ExecState) : (s.setStatus st).pc = s.pc := rfl
@[simp] theorem State.setStatus_fp (st : ExecState) : (s.setStatus st).fp = s.fp := rfl
@[simp] theorem State.setStatus_inq (st : ExecState) : (s.setStatus st).inq = s.inq := rfl
@[simp] theorem State.setStatus_outq (st : ExecState) : (s.setStatus st).outq = s.outq := rfl
@[simp] theorem State.setStatus_status (st : ExecState) : (s.setStatus st).status = st := rfl
@[simp] theorem State.setStatus_driver (st : ExecState) : (s.setStatus st).driver = s.driver := rfl

/-! ### `answer` -/

@[simp] theorem State.answer_cfg (r : Reply) : (s.answer r).cfg = s.cfg := rfl
@[simp] theorem State.answer_mem (r : Reply) : (s.answer r).mem = s.mem := rfl
@[simp] theorem State.answer_pc (r : Reply) : (s.answer r).pc = s.pc := rfl
@[simp] theorem State.answer_fp (r : Reply) : (s.answer r).fp = s.fp := rfl
@[simp] theorem State.answer_inq (r : Reply) : (s.answer r).inq = s.inq := rfl
@[simp] theorem State.answer_outq (r : Reply) : (s.answer r).outq = s.outq := rfl
@[simp] theorem State.answer_status (r : Reply) : (s.answer r).status = s.status := rfl
@[simp] theorem State.answer_requests (r : Reply) :
    (s.answer r).driver.requests = s.driver.requests := rfl
@[simp] theorem State.answer_replies (r : Reply) :
    (s.answer r).driver.replies = s.driver.replies ++ [r] := rfl

/-! ### `setRequests` -/

@[simp] theorem State.setRequests_cfg (rs : List Request) : (s.setRequests rs).cfg = s.cfg := rfl
@[simp] theorem State.setRequests_mem (rs : List Request) : (s.setRequests rs).mem = s.mem := rfl
@[simp] theorem State.setRequests_pc (rs : List Request) : (s.setRequests rs).pc = s.pc := rfl
@[simp] theorem State.setRequests_fp (rs : List Request) : (s.setRequests rs).fp = s.fp := rfl
@[simp] theorem State.setRequests_inq (rs : List Request) : (s.setRequests rs).inq = s.inq := rfl
@[simp] theorem State.setRequests_outq (rs : List Request) : (s.setRequests rs).outq = s.outq := rfl
@[simp] theorem State.setRequests_status (rs : List Request) : (s.setRequests rs).status = s.status := rfl
@[simp] theorem State.setRequests_requests (rs : List Request) :
    (s.setRequests rs).driver.requests = rs := rfl
@[simp] theorem State.setRequests_replies (rs : List Request) :
    (s.setRequests rs).driver.replies = s.driver.replies := rfl

/-! ### `raise` -/

@[simp] theorem State.raise_cfg (c : FatalCondition) : (s.raise c).cfg = s.cfg := rfl
@[simp] theorem State.raise_mem (c : FatalCondition) : (s.raise c).mem = s.mem := rfl
@[simp] theorem State.raise_pc (c : FatalCondition) : (s.raise c).pc = s.pc := rfl
@[simp] theorem State.raise_fp (c : FatalCondition) : (s.raise c).fp = s.fp := rfl
@[simp] theorem State.raise_inq (c : FatalCondition) : (s.raise c).inq = s.inq := rfl
@[simp] theorem State.raise_outq (c : FatalCondition) : (s.raise c).outq = s.outq := rfl
@[simp] theorem State.raise_status (c : FatalCondition) : (s.raise c).status = .faulted c := rfl
@[simp] theorem State.raise_driver (c : FatalCondition) : (s.raise c).driver = s.driver := rfl

/-! ### `yield` -/

@[simp] theorem State.yield_cfg (r : Reason) : (s.yield r).cfg = s.cfg := rfl
@[simp] theorem State.yield_mem (r : Reason) : (s.yield r).mem = s.mem := rfl
@[simp] theorem State.yield_pc (r : Reason) : (s.yield r).pc = s.pc := rfl
@[simp] theorem State.yield_fp (r : Reason) : (s.yield r).fp = s.fp := rfl
@[simp] theorem State.yield_inq (r : Reason) : (s.yield r).inq = s.inq := rfl
@[simp] theorem State.yield_outq (r : Reason) : (s.yield r).outq = s.outq := rfl
@[simp] theorem State.yield_status (r : Reason) : (s.yield r).status = .interrupted r := rfl
@[simp] theorem State.yield_driver (r : Reason) : (s.yield r).driver = s.driver := rfl

/-! ### `resume` -/

@[simp] theorem State.resume_cfg : (s.resume).cfg = s.cfg := rfl
@[simp] theorem State.resume_mem : (s.resume).mem = s.mem := rfl
@[simp] theorem State.resume_pc : (s.resume).pc = s.pc := rfl
@[simp] theorem State.resume_fp : (s.resume).fp = s.fp := rfl
@[simp] theorem State.resume_inq : (s.resume).inq = s.inq := rfl
@[simp] theorem State.resume_outq : (s.resume).outq = s.outq := rfl
@[simp] theorem State.resume_status : (s.resume).status = .running := rfl
@[simp] theorem State.resume_driver : (s.resume).driver = s.driver := rfl

/-! ### `toReset` -/

@[simp] theorem State.toReset_cfg : (s.toReset).cfg = s.cfg := rfl
@[simp] theorem State.toReset_mem : (s.toReset).mem = [] := rfl
@[simp] theorem State.toReset_pc : (s.toReset).pc = 0 := rfl
@[simp] theorem State.toReset_fp : (s.toReset).fp = 0 := rfl
@[simp] theorem State.toReset_inq : (s.toReset).inq = [] := rfl
@[simp] theorem State.toReset_outq : (s.toReset).outq = [] := rfl
@[simp] theorem State.toReset_status : (s.toReset).status = .booting := rfl
@[simp] theorem State.toReset_driver : (s.toReset).driver = s.driver := rfl

/-! ### What a run span's end tells the host -/

@[simp] theorem State.deliver_cfg : s.deliver.cfg = s.cfg := by unfold State.deliver; split <;> rfl
@[simp] theorem State.deliver_mem : s.deliver.mem = s.mem := by unfold State.deliver; split <;> rfl
@[simp] theorem State.deliver_pc : s.deliver.pc = s.pc := by unfold State.deliver; split <;> rfl
@[simp] theorem State.deliver_fp : s.deliver.fp = s.fp := by unfold State.deliver; split <;> rfl
@[simp] theorem State.deliver_inq : s.deliver.inq = s.inq := by unfold State.deliver; split <;> rfl
@[simp] theorem State.deliver_outq : s.deliver.outq = s.outq := by unfold State.deliver; split <;> rfl
@[simp] theorem State.deliver_status : s.deliver.status = s.status := by
  unfold State.deliver; split <;> simp_all
@[simp] theorem State.deliver_requests : s.deliver.driver.requests = s.driver.requests := by
  unfold State.deliver; split <;> rfl

theorem State.deliver_running (h : s.status = .running) : s.deliver = s := by
  simp [State.deliver, h]

theorem State.deliver_stopped (h : s.status ≠ .running) : s.deliver = s.answer (.run s.status) := by
  unfold State.deliver; split <;> simp_all

/-! ### The status registers -/

@[simp] theorem State.fatal_raise (c : FatalCondition) : (s.raise c).fatal = some c := rfl
@[simp] theorem State.fcause_raise (c : FatalCondition) : (s.raise c).fcause = some c.code := rfl
@[simp] theorem State.finfo_raise (c : FatalCondition) : (s.raise c).finfo = some c.info := rfl
@[simp] theorem State.reason_yield (r : Reason) : (s.yield r).reason = some r := rfl

theorem State.fatal_eq_some (c : FatalCondition) : s.fatal = some c ↔ s.status = .faulted c := by
  unfold State.fatal; split <;> simp_all

theorem State.fatal_eq_none : s.fatal = none ↔ ∀ c, s.status ≠ .faulted c := by
  unfold State.fatal; split <;> simp_all

/-! ### Committing a step -/

@[simp] theorem State.commit_ok (t : State) : s.commit (.ok t) = .next t := rfl
@[simp] theorem State.commit_error (c : FatalCondition) : s.commit (.error c) = .next (s.raise c) := rfl

/-- All a committed step can do: what it computed, or the fatal condition taken in the state it began in. -/
theorem State.commit_cases (r : Except FatalCondition State) (t : State) (h : s.commit r = .next t) :
    r = .ok t ∨ ∃ c, r = .error c ∧ t = s.raise c := by
  cases r with
  | ok u => left; simp only [State.commit_ok, Host.Outcome.next.injEq] at h; rw [h]
  | error c => right; simp only [State.commit_error, Host.Outcome.next.injEq] at h; exact ⟨c, rfl, h.symm⟩

end Sys2Proof.Machine
end

