-- ==== Sys2Proof/Laws/Operands.lean ====
section
/-! SUPPORT. What the operand operations can answer, said once each; the meanings are peeled with these. -/

namespace Sys2Proof.Machine

open Sys2Proof

/-! ### Sequencing -/

theorem bind_eq_ok {ε α β : Type} (x : Except ε α) (f : α → Except ε β) (b : β) :
    (x >>= f) = .ok b ↔ ∃ a, x = .ok a ∧ f a = .ok b := by
  cases x <;> simp [bind, Except.bind]

theorem bind_eq_error {ε α β : Type} (x : Except ε α) (f : α → Except ε β) (e : ε) :
    (x >>= f) = .error e ↔ x = .error e ∨ ∃ a, x = .ok a ∧ f a = .error e := by
  cases x <;> simp [bind, Except.bind]

@[simp] theorem ok_bind {ε α β : Type} (a : α) (f : α → Except ε β) :
    ((Except.ok a : Except ε α) >>= f) = f a := rfl

@[simp] theorem error_bind {ε α β : Type} (e : ε) (f : α → Except ε β) :
    ((Except.error e : Except ε α) >>= f) = .error e := rfl

@[simp] theorem pure_eq_ok {ε α : Type} (a : α) : (pure a : Except ε α) = .ok a := rfl

/-! ### The range check -/

/-- An address that passes the check is the address itself, within memory. -/
theorem checkAddr_eq_ok (cfg : Config) (a : Int) (k : AccessKind) (d : Nat) :
    checkAddr cfg a k = .ok d ↔ a = (d : Int) ∧ d < cfg.memCap := by
  unfold checkAddr
  split
  · simp; omega
  · simp only [Except.ok.injEq]; omega

/-- An address that fails the check is out of range, and the fatal condition names it. -/
theorem checkAddr_eq_error (cfg : Config) (a : Int) (k : AccessKind) (c : FatalCondition) :
    checkAddr cfg a k = .error c ↔ (a < 0 ∨ (cfg.memCap : Int) ≤ a) ∧ c = .addressFault a k := by
  unfold checkAddr
  split
  · rename_i h; simp [h, eq_comm]
  · rename_i h; simp [h]

theorem checkAddr_inRange (cfg : Config) (d : Nat) (k : AccessKind) (h : d < cfg.memCap) :
    checkAddr cfg (d : Int) k = .ok d := (checkAddr_eq_ok cfg d k d).2 ⟨rfl, h⟩

theorem checkAddr_outOfRange (cfg : Config) (a : Int) (k : AccessKind)
    (h : a < 0 ∨ (cfg.memCap : Int) ≤ a) : checkAddr cfg a k = .error (.addressFault a k) :=
  (checkAddr_eq_error cfg a k _).2 ⟨h, rfl⟩

/-! ### Operands -/

variable (s : State)

theorem State.raw_eq_ok (i : Nat) (r : Int) :
    s.raw i = .ok r ↔ s.slot i < s.cfg.memCap ∧ r = s.mem.read (s.slot i) := by
  simp only [State.raw, bind_eq_ok, checkAddr_eq_ok, pure_eq_ok, Except.ok.injEq]
  constructor
  · rintro ⟨a, ⟨h1, h2⟩, h3⟩
    have : s.slot i = a := by exact_mod_cast h1
    subst this
    exact ⟨h2, h3.symm⟩
  · rintro ⟨h1, h2⟩; exact ⟨s.slot i, ⟨rfl, h1⟩, h2.symm⟩

theorem State.raw_eq_error (i : Nat) (c : FatalCondition) :
    s.raw i = .error c ↔
      s.cfg.memCap ≤ s.slot i ∧ c = .addressFault (s.slot i : Int) .operandSlot := by
  simp only [State.raw, bind_eq_error, checkAddr_eq_error, pure_eq_ok, reduceCtorEq, and_false,
    exists_false, or_false]
  constructor
  · rintro ⟨h1, h2⟩; exact ⟨by omega, h2⟩
  · rintro ⟨h1, h2⟩; exact ⟨by omega, h2⟩

theorem State.ea_eq_ok (i : Nat) (m : Mode) (k : AccessKind) (d : Nat) :
    s.ea i m k = .ok d ↔ s.slot i < s.cfg.memCap ∧
      s.formAddress i (s.mem.read (s.slot i)) m = (d : Int) ∧ d < s.cfg.memCap := by
  simp only [State.ea, bind_eq_ok, State.raw_eq_ok, checkAddr_eq_ok]
  constructor
  · rintro ⟨r, ⟨h1, rfl⟩, h2⟩; exact ⟨h1, h2⟩
  · rintro ⟨h1, h2⟩; exact ⟨_, ⟨h1, rfl⟩, h2⟩

theorem State.ea_eq_error (i : Nat) (m : Mode) (k : AccessKind) (c : FatalCondition) :
    s.ea i m k = .error c ↔
      (s.cfg.memCap ≤ s.slot i ∧ c = .addressFault (s.slot i : Int) .operandSlot) ∨
      (s.slot i < s.cfg.memCap ∧
        (s.formAddress i (s.mem.read (s.slot i)) m < 0 ∨
          (s.cfg.memCap : Int) ≤ s.formAddress i (s.mem.read (s.slot i)) m) ∧
        c = .addressFault (s.formAddress i (s.mem.read (s.slot i)) m) k) := by
  simp only [State.ea, bind_eq_error, State.raw_eq_error, State.raw_eq_ok, checkAddr_eq_error]
  constructor
  · rintro (h | ⟨r, ⟨h1, rfl⟩, h2, h3⟩)
    · exact .inl h
    · exact .inr ⟨h1, h2, h3⟩
  · rintro (h | ⟨h1, h2, h3⟩)
    · exact .inl h
    · exact .inr ⟨_, ⟨h1, rfl⟩, h2, h3⟩

theorem State.val_eq_ok (i : Nat) (m : Mode) (v : Int) :
    s.val i m = .ok v ↔ ∃ a, s.ea i m .dataRead = .ok a ∧ s.mem.read a = v := by
  simp only [State.val, bind_eq_ok, pure_eq_ok, Except.ok.injEq]

theorem State.val_eq_error (i : Nat) (m : Mode) (c : FatalCondition) :
    s.val i m = .error c ↔ s.ea i m .dataRead = .error c := by
  simp only [State.val, bind_eq_error, pure_eq_ok, reduceCtorEq, and_false, exists_false, or_false]

/-- An effective address is within memory. -/
theorem State.ea_lt (i : Nat) (m : Mode) (k : AccessKind) (d : Nat) (h : s.ea i m k = .ok d) :
    d < s.cfg.memCap := ((s.ea_eq_ok i m k d).1 h).2.2

/-- The destination address is within memory. -/
theorem State.dst_lt (i : Nat) (m : Mode) (d : Nat) (h : s.dst i m = .ok d) : d < s.cfg.memCap :=
  s.ea_lt i m _ d h

/-- A fatal condition of an effective address is an AddressFault on the slot or of the access. -/
theorem State.ea_error_kind (i : Nat) (m : Mode) (k : AccessKind) (c : FatalCondition)
    (h : s.ea i m k = .error c) :
    ∃ a, c = .addressFault a .operandSlot ∨ c = .addressFault a k := by
  rcases (s.ea_eq_error i m k c).1 h with ⟨_, h⟩ | ⟨_, _, h⟩
  · exact ⟨_, .inl h⟩
  · exact ⟨_, .inr h⟩

/-- A fatal condition of an operand's value is an AddressFault on the slot or on the read. -/
theorem State.val_error_kind (i : Nat) (m : Mode) (c : FatalCondition) (h : s.val i m = .error c) :
    ∃ a, c = .addressFault a .operandSlot ∨ c = .addressFault a .dataRead :=
  s.ea_error_kind i m .dataRead c ((s.val_eq_error i m c).1 h)

/-! ### Operands depend on memory, pc, fp and the parameters alone -/

theorem State.ea_congr (t : State) (i : Nat) (m : Mode) (k : AccessKind) (hc : t.cfg = s.cfg)
    (hm : t.mem = s.mem) (hp : t.pc = s.pc) (hf : t.fp = s.fp) : t.ea i m k = s.ea i m k := by
  cases m <;> simp [State.ea, State.raw, State.formAddress, State.slot, hc, hm, hp, hf]

theorem State.val_congr (t : State) (i : Nat) (m : Mode) (hc : t.cfg = s.cfg)
    (hm : t.mem = s.mem) (hp : t.pc = s.pc) (hf : t.fp = s.fp) : t.val i m = s.val i m := by
  simp [State.val, State.ea_congr s t i m .dataRead hc hm hp hf, hm]

theorem State.dst_congr (t : State) (i : Nat) (m : Mode) (hc : t.cfg = s.cfg)
    (hm : t.mem = s.mem) (hp : t.pc = s.pc) (hf : t.fp = s.fp) : t.dst i m = s.dst i m :=
  State.ea_congr s t i m .dataWrite hc hm hp hf

/-! ### The ALU's checks -/

theorem fitting_eq_ok (cfg : Config) (op : Nat) (r : Int) (v : Int) :
    fitting cfg op r = .ok v ↔ cfg.fits r ∧ v = r := by
  unfold fitting
  split
  · rename_i h
    rw [Except.ok.injEq]
    exact ⟨fun e => ⟨h, e.symm⟩, fun e => e.2.symm⟩
  · rename_i h
    exact ⟨fun e => by simp at e, fun e => absurd e.1 h⟩

theorem fitting_eq_error (cfg : Config) (op : Nat) (r : Int) (c : FatalCondition) :
    fitting cfg op r = .error c ↔ ¬ cfg.fits r ∧ c = .arithOverflow op := by
  unfold fitting
  split
  · rename_i h
    exact ⟨fun e => by simp at e, fun e => absurd h e.1⟩
  · rename_i h
    rw [Except.error.injEq]
    exact ⟨fun e => ⟨h, e.symm⟩, fun e => e.2.symm⟩

theorem lessWord_eq (a b : Int) : lessWord a b = if a < b then 1 else 0 := by
  simp [lessWord, wordOfBool]

theorem equalWord_eq (a b : Int) : equalWord a b = if a = b then 1 else 0 := by
  simp [equalWord, wordOfBool]

@[simp] theorem nonZero_iff (a : Int) : nonZero a = true ↔ a ≠ 0 := by simp [nonZero]

/-- 0 and 1 are words of every legal width. -/
theorem wordOfBool_fits (cfg : Config) (h : cfg.WellFormed) (b : Bool) : cfg.fits (wordOfBool b) := by
  have h0 := fits_zero cfg
  cases b
  · exact h0
  · refine ⟨le_trans h0.1 (by simp [wordOfBool]), ?_⟩
    show (1 : Int) ≤ maxOfBits cfg.wordBits
    have h2 : 2 ^ 15 ≤ 2 ^ (cfg.wordBits - 1) :=
      Nat.pow_le_pow_right (by norm_num) (by have := h.1; omega)
    have h3 : ((2 ^ 15 : Nat) : Int) ≤ ((2 ^ (cfg.wordBits - 1) : Nat) : Int) := by exact_mod_cast h2
    unfold maxOfBits
    norm_num at h3 ⊢
    omega

end Sys2Proof.Machine
end

