-- ==== Sys2Proof/Laws/Decode.lean ====
section
/-! SUPPORT. What the decoder's parts answer, said once each. -/

namespace Sys2Proof

open Sys2Proof.Machine

/-- A digit selects a mode exactly when it is that mode's digit. -/
theorem Mode.ofDigit_eq_some (n : Nat) (m : Mode) : Mode.ofDigit n = some m ↔ n = m.digit := by
  constructor
  · intro h
    unfold Mode.ofDigit at h
    split at h <;> simp at h <;> subst h <;> rfl
  · rintro rfl; cases m <;> rfl

/-- The digits that select no mode are those above 2. -/
theorem Mode.ofDigit_eq_none (n : Nat) : Mode.ofDigit n = none ↔ 2 < n := by
  unfold Mode.ofDigit
  split
  · simp
  · simp
  · simp
  · rename_i h0 h1 h2
    have h0 : n ≠ 0 := h0
    have h1 : n ≠ 1 := h1
    have h2 : n ≠ 2 := h2
    simp; omega

theorem Mode.digit_lt (m : Mode) : m.digit < 3 := by cases m <;> decide

theorem Mode.digit_inj (m m' : Mode) (h : m.digit = m'.digit) : m = m' := by
  cases m <;> cases m' <;> first | rfl | (exact absurd h (by decide))

theorem decodeMode_eq_ok (iw : Int) (i : Nat) (m : Mode) :
    decodeMode iw i = .ok m ↔ Sys2Proof.digit iw.toNat (i + 2) = m.digit := by
  unfold decodeMode
  cases h : Mode.ofDigit (Sys2Proof.digit iw.toNat (i + 2)) with
  | none =>
    simp only [reduceCtorEq, false_iff]
    intro e
    rw [(Mode.ofDigit_eq_some _ m).2 e] at h
    simp at h
  | some m' =>
    have h' := (Mode.ofDigit_eq_some _ m').1 h
    simp only [Except.ok.injEq]
    exact ⟨fun e => e ▸ h', fun e => Mode.digit_inj _ _ (h'.symm.trans e)⟩

theorem decodeMode_eq_error (iw : Int) (i : Nat) (e : DecodeError) :
    decodeMode iw i = .error e ↔ 2 < Sys2Proof.digit iw.toNat (i + 2) ∧ e = .illegalMode iw i := by
  unfold decodeMode
  cases h : Mode.ofDigit (Sys2Proof.digit iw.toNat (i + 2)) with
  | none =>
    have h' := (Mode.ofDigit_eq_none _).1 h
    simp [h', eq_comm]
  | some m =>
    have h' := (Mode.ofDigit_eq_some _ m).1 h
    have := m.digit_lt
    simp only [reduceCtorEq, false_iff, not_and]
    intro h2
    omega

theorem decodeThree_eq_ok (iw : Int) (k : Mode → Mode → Mode → Instr) (i : Instr) :
    decodeThree iw k = .ok i ↔ ∃ a b d, decodeMode iw 0 = .ok a ∧ decodeMode iw 1 = .ok b ∧
      decodeMode iw 2 = .ok d ∧ k a b d = i := by
  simp only [decodeThree, bind_eq_ok, pure_eq_ok, Except.ok.injEq]
  constructor
  · rintro ⟨a, ha, b, hb, d, hd, rfl⟩; exact ⟨a, b, d, ha, hb, hd, rfl⟩
  · rintro ⟨a, b, d, ha, hb, hd, rfl⟩; exact ⟨a, ha, b, hb, d, hd, rfl⟩

theorem decodeTwo_eq_ok (iw : Int) (k : Mode → Mode → Instr) (i : Instr) :
    decodeTwo iw k = .ok i ↔ ∃ a t, decodeMode iw 0 = .ok a ∧ decodeMode iw 1 = .ok t ∧ k a t = i := by
  simp only [decodeTwo, bind_eq_ok, pure_eq_ok, Except.ok.injEq]
  constructor
  · rintro ⟨a, ha, t, ht, rfl⟩; exact ⟨a, t, ha, ht, rfl⟩
  · rintro ⟨a, t, ha, ht, rfl⟩; exact ⟨a, ha, t, ht, rfl⟩

theorem decodeOne_eq_ok (iw : Int) (k : Mode → Instr) (i : Instr) :
    decodeOne iw k = .ok i ↔ ∃ a, decodeMode iw 0 = .ok a ∧ k a = i := by
  simp only [decodeOne, bind_eq_ok, pure_eq_ok, Except.ok.injEq]

theorem decodeThree_eq_error (iw : Int) (k : Mode → Mode → Mode → Instr) (e : DecodeError) :
    decodeThree iw k = .error e ↔ decodeMode iw 0 = .error e ∨
      (∃ a, decodeMode iw 0 = .ok a ∧ (decodeMode iw 1 = .error e ∨
        ∃ b, decodeMode iw 1 = .ok b ∧ decodeMode iw 2 = .error e)) := by
  simp only [decodeThree, bind_eq_error, pure_eq_ok, reduceCtorEq, and_false, exists_false, or_false]

theorem decodeTwo_eq_error (iw : Int) (k : Mode → Mode → Instr) (e : DecodeError) :
    decodeTwo iw k = .error e ↔ decodeMode iw 0 = .error e ∨
      (∃ a, decodeMode iw 0 = .ok a ∧ decodeMode iw 1 = .error e) := by
  simp only [decodeTwo, bind_eq_error, pure_eq_ok, reduceCtorEq, and_false, exists_false, or_false]

theorem decodeOne_eq_error (iw : Int) (k : Mode → Instr) (e : DecodeError) :
    decodeOne iw k = .error e ↔ decodeMode iw 0 = .error e := by
  simp only [decodeOne, bind_eq_error, pure_eq_ok, reduceCtorEq, and_false, exists_false, or_false]

/-- A negative word is rejected (R82). -/
theorem decodeWord_negative (iw : Int) (h : iw < 0) : decodeWord iw = .error (.illegalOpcode iw) := by
  simp [decodeWord, h]

theorem Instr.operandCount_eq (i : Instr) :
    i.operandCount = i.modes.length := rfl

/-- An instruction's opcode is one of the two-digit numbers. -/
theorem Instr.opcode_lt (i : Instr) : i.opcode < 100 := by cases i <;> simp [Instr.opcode]

end Sys2Proof
end

