-- ==== Sys2Proof/Laws/Exec.lean ====
section
/-! SUPPORT. What each meaning can do, said once: the next state it reaches, or the fatal condition it takes, and
where that condition came from. Later proofs cite these and never unfold a meaning. -/

namespace Sys2Proof.Machine

open Sys2Proof

variable (s : State)

/-- All a three-operand instruction can do. -/
theorem State.threeOperand_cases (ma mb md : Mode) (op : Int → Int → Except FatalCondition Int)
    (t : State) (h : s.threeOperand ma mb md op = .next t) :
    (∃ a b d r, s.val 0 ma = .ok a ∧ s.val 1 mb = .ok b ∧ s.dst 2 md = .ok d ∧ op a b = .ok r ∧
      t = (s.store d r).advance 4) ∨
    (∃ c, t = s.raise c ∧
      (s.val 0 ma = .error c ∨
       (∃ a, s.val 0 ma = .ok a ∧ s.val 1 mb = .error c) ∨
       (∃ a b, s.val 0 ma = .ok a ∧ s.val 1 mb = .ok b ∧ s.dst 2 md = .error c) ∨
       (∃ a b d, s.val 0 ma = .ok a ∧ s.val 1 mb = .ok b ∧ s.dst 2 md = .ok d ∧ op a b = .error c))) := by
  rcases s.commit_cases _ t h with h' | ⟨c, h', rfl⟩
  · simp only [bind_eq_ok, pure_eq_ok, Except.ok.injEq] at h'
    obtain ⟨a, ha, b, hb, d, hd, r, hr, rfl⟩ := h'
    exact .inl ⟨a, b, d, r, ha, hb, hd, hr, rfl⟩
  · simp only [bind_eq_error, pure_eq_ok, reduceCtorEq, and_false, exists_false, or_false] at h'
    refine .inr ⟨c, rfl, ?_⟩
    rcases h' with h | ⟨a, ha, h | ⟨b, hb, h | ⟨d, hd, h⟩⟩⟩
    · exact .inl h
    · exact .inr (.inl ⟨a, ha, h⟩)
    · exact .inr (.inr (.inl ⟨a, b, ha, hb, h⟩))
    · exact .inr (.inr (.inr ⟨a, b, d, ha, hb, hd, h⟩))

/-- A three-operand instruction whose operands are all accessible and whose result fits. -/
theorem State.threeOperand_next (ma mb md : Mode) (op : Int → Int → Except FatalCondition Int)
    (a b r : Int) (d : Nat) (ha : s.val 0 ma = .ok a) (hb : s.val 1 mb = .ok b)
    (hd : s.dst 2 md = .ok d) (hr : op a b = .ok r) :
    s.threeOperand ma mb md op = .next ((s.store d r).advance 4) := by
  simp [State.threeOperand, ha, hb, hd, hr]

/-- All a conditional jump can do. -/
theorem State.jumpWhen_cases (ma mt : Mode) (cond : Int → Bool) (t : State)
    (h : s.jumpWhen ma mt cond = .next t) :
    (∃ a v, s.val 0 ma = .ok a ∧ s.val 1 mt = .ok v ∧ cond a = true ∧ 0 ≤ v ∧ t = s.jump v.toNat) ∨
    (∃ a v, s.val 0 ma = .ok a ∧ s.val 1 mt = .ok v ∧ cond a = false ∧ t = s.advance 3) ∨
    (∃ c, t = s.raise c ∧
      (s.val 0 ma = .error c ∨
       (∃ a, s.val 0 ma = .ok a ∧ s.val 1 mt = .error c) ∨
       (∃ a v, s.val 0 ma = .ok a ∧ s.val 1 mt = .ok v ∧ cond a = true ∧ v < 0 ∧
          c = .addressFault v .jumpTarget))) := by
  unfold State.jumpWhen at h
  cases ha : s.val 0 ma with
  | error c =>
    simp only [ha, error_bind, State.commit_error, Host.Outcome.next.injEq] at h
    exact .inr (.inr ⟨c, h.symm, .inl rfl⟩)
  | ok a =>
    cases hv : s.val 1 mt with
    | error c =>
      simp only [ha, hv, ok_bind, error_bind, State.commit_error, Host.Outcome.next.injEq] at h
      exact .inr (.inr ⟨c, h.symm, .inr (.inl ⟨a, rfl, rfl⟩)⟩)
    | ok v =>
      simp only [ha, hv, ok_bind] at h
      cases hc : cond a with
      | false =>
        simp only [hc, Bool.false_eq_true, if_false, pure_eq_ok, State.commit_ok,
          Host.Outcome.next.injEq] at h
        exact .inr (.inl ⟨a, v, rfl, rfl, hc, h.symm⟩)
      | true =>
        by_cases hn : v < 0
        · simp only [hc, if_true, jumpTarget, hn, error_bind, State.commit_error,
            Host.Outcome.next.injEq] at h
          exact .inr (.inr ⟨_, h.symm, .inr (.inr ⟨a, v, rfl, rfl, hc, hn, rfl⟩)⟩)
        · simp only [hc, if_true, jumpTarget, hn, if_false, ok_bind, pure_eq_ok, State.commit_ok,
            Host.Outcome.next.injEq] at h
          exact .inl ⟨a, v, rfl, rfl, hc, not_lt.1 hn, h.symm⟩

/-- All `input` can do. -/
theorem execInput_cases (md : Mode) (t : State) (h : execInput md s = .next t) :
    (s.inq = [] ∧ t = s.yield .needsInput) ∨
    (∃ v q d, s.inq = v :: q ∧ s.dst 0 md = .ok d ∧ t = ((s.setInq q).store d v).advance 2) ∨
    (∃ v q c, s.inq = v :: q ∧ s.dst 0 md = .error c ∧ t = s.raise c) := by
  unfold execInput at h
  split at h
  · rename_i hq
    simp only [Host.Outcome.next.injEq] at h
    exact .inl ⟨hq, h.symm⟩
  · rename_i v q hq
    rcases s.commit_cases _ t h with h' | ⟨c, h', rfl⟩
    · simp only [bind_eq_ok, pure_eq_ok, Except.ok.injEq] at h'
      obtain ⟨d, hd, rfl⟩ := h'
      exact .inr (.inl ⟨v, q, d, hq, hd, rfl⟩)
    · simp only [bind_eq_error, pure_eq_ok, reduceCtorEq, and_false, exists_false, or_false] at h'
      exact .inr (.inr ⟨v, q, c, hq, h', rfl⟩)

/-- All `output` can do. -/
theorem execOutput_cases (ma : Mode) (t : State) (h : execOutput ma s = .next t) :
    (∃ a, s.val 0 ma = .ok a ∧ t = ((s.pushOut a).advance 2).yield .producedOutput) ∨
    (∃ c, s.val 0 ma = .error c ∧ t = s.raise c) := by
  rcases s.commit_cases _ t h with h' | ⟨c, h', rfl⟩
  · simp only [bind_eq_ok, pure_eq_ok, Except.ok.injEq] at h'
    obtain ⟨a, ha, rfl⟩ := h'
    exact .inl ⟨a, ha, rfl⟩
  · simp only [bind_eq_error, pure_eq_ok, reduceCtorEq, and_false, exists_false, or_false] at h'
    exact .inr ⟨c, h', rfl⟩

/-- All `adjust-base` can do. -/
theorem execAdjustBase_cases (ma : Mode) (t : State) (h : execAdjustBase ma s = .next t) :
    (∃ a, s.val 0 ma = .ok a ∧ s.cfg.fits (s.fp + a) ∧ t = (s.setFp (s.fp + a)).advance 2) ∨
    (∃ c, t = s.raise c ∧
      (s.val 0 ma = .error c ∨
       (∃ a, s.val 0 ma = .ok a ∧ ¬ s.cfg.fits (s.fp + a) ∧ c = .arithOverflow 9))) := by
  rcases s.commit_cases _ t h with h' | ⟨c, h', rfl⟩
  · simp only [bind_eq_ok, pure_eq_ok, Except.ok.injEq, fitting_eq_ok] at h'
    obtain ⟨a, ha, r, ⟨hf, rfl⟩, rfl⟩ := h'
    exact .inl ⟨a, ha, hf, rfl⟩
  · simp only [bind_eq_error, pure_eq_ok, reduceCtorEq, and_false, exists_false, or_false,
      fitting_eq_error] at h'
    exact .inr ⟨c, rfl, h'⟩

/-- All `halt` can do. -/
theorem execHalt_cases (t : State) (h : execHalt s = .next t) : t = s.setStatus .halted := by
  simpa only [execHalt, Host.Outcome.next.injEq, eq_comm] using h

/-- A committed step never faults and is never refused. -/
theorem State.commit_next (r : Except FatalCondition State) : ∃ t, s.commit r = .next t := by
  cases r with
  | ok t => exact ⟨t, rfl⟩
  | error c => exact ⟨s.raise c, rfl⟩

end Sys2Proof.Machine
end

