-- ==== Sys2Proof/Laws/Step.lean ====
section
/-! SUPPORT. What a step of the machine can do, said once: a turn of the core (with what it fetches and decodes)
or a transaction of the host. -/

namespace Sys2Proof.Machine

open Sys2Proof

variable (s : State)

/-! ### Fetch and decode -/

theorem State.fetch_eq_ok (iw : Int) :
    s.fetch = .ok iw ↔ s.pc < s.cfg.memCap ∧ iw = s.mem.read s.pc := by
  simp only [State.fetch, bind_eq_ok, checkAddr_eq_ok, pure_eq_ok, Except.ok.injEq]
  constructor
  · rintro ⟨a, ⟨h1, h2⟩, h3⟩
    have : s.pc = a := by exact_mod_cast h1
    subst this
    exact ⟨h2, h3.symm⟩
  · rintro ⟨h1, h2⟩; exact ⟨s.pc, ⟨rfl, h1⟩, h2.symm⟩

theorem State.fetch_eq_error (c : FatalCondition) :
    s.fetch = .error c ↔ s.cfg.memCap ≤ s.pc ∧ c = .addressFault (s.pc : Int) .fetch := by
  simp only [State.fetch, bind_eq_error, checkAddr_eq_error, pure_eq_ok, reduceCtorEq, and_false,
    exists_false, or_false]
  constructor
  · rintro ⟨h1, h2⟩; exact ⟨by omega, h2⟩
  · rintro ⟨h1, h2⟩; exact ⟨by omega, h2⟩

theorem State.fetchDecode_eq_ok (i : Instr) :
    s.fetchDecode = .ok i ↔ s.pc < s.cfg.memCap ∧ decodeWord (s.mem.read s.pc) = .ok i := by
  simp only [State.fetchDecode, bind_eq_ok, State.fetch_eq_ok]
  constructor
  · rintro ⟨iw, ⟨h1, rfl⟩, h⟩
    refine ⟨h1, ?_⟩
    split at h
    · rename_i j hj
      simp only [pure_eq_ok, Except.ok.injEq] at h
      rw [hj, h]
    · simp [throw, throwThe, MonadExceptOf.throw] at h
  · rintro ⟨h1, h2⟩
    exact ⟨_, ⟨h1, rfl⟩, by rw [h2]; rfl⟩

theorem State.fetchDecode_eq_error (c : FatalCondition) :
    s.fetchDecode = .error c ↔
      (s.cfg.memCap ≤ s.pc ∧ c = .addressFault (s.pc : Int) .fetch) ∨
      (s.pc < s.cfg.memCap ∧ ∃ e, decodeWord (s.mem.read s.pc) = .error e ∧ c = fatalOfDecode e) := by
  simp only [State.fetchDecode, bind_eq_error, State.fetch_eq_error, State.fetch_eq_ok]
  constructor
  · rintro (h | ⟨iw, ⟨h1, rfl⟩, h⟩)
    · exact .inl h
    · refine .inr ⟨h1, ?_⟩
      split at h
      · simp at h
      · rename_i e he
        simp only [throw, throwThe, MonadExceptOf.throw, Except.error.injEq] at h
        exact ⟨e, he, h.symm⟩
  · rintro (h | ⟨h1, e, h2, rfl⟩)
    · exact .inl h
    · exact .inr ⟨_, ⟨h1, rfl⟩, by rw [h2]; rfl⟩

/-! ### The core -/

/-- All a step of the core can do. -/
theorem coreStep_cases (t : State) (h : coreStep s = .next t) :
    (∃ i, s.fetchDecode = .ok i ∧ exec i s = .next t) ∨
    (∃ c, s.fetchDecode = .error c ∧ t = s.raise c) := by
  unfold coreStep at h
  split at h
  · rename_i i hi; exact .inl ⟨i, hi, h⟩
  · rename_i c hc
    simp only [Host.Outcome.next.injEq] at h
    exact .inr ⟨c, hc, h.symm⟩

/-- A turn of the core that answers a next state was a step of a Running core. -/
theorem coreTurn_cases (t : State) (h : coreTurn s = .next t) :
    s.status = .running ∧ ∃ u, coreStep s = .next u ∧ t = u.deliver := by
  unfold coreTurn at h
  split at h
  · rename_i hr
    refine ⟨hr, ?_⟩
    split at h
    · rename_i u hu
      simp only [Host.Outcome.next.injEq] at h
      exact ⟨u, hu, h.symm⟩
    · simp at h
    · simp at h
  all_goals simp at h

/-- A Running core's turn is its step, with the RUN answered when the step ends the run span. -/
theorem coreTurn_running (u : State) (hr : s.status = .running) (h : coreStep s = .next u) :
    coreTurn s = .next u.deliver := by
  simp [coreTurn, hr, h]

/-- All a step of the machine can do: a step of the core (the host asking nothing, or its next request not
being due) or a transaction of the host. -/
theorem step_cases (t : State) (h : step s = .next t) :
    (∃ s' u, (s' = s ∧ s.driver.requests = [] ∨
        ∃ r rs, s.driver.requests = r :: rs ∧ r.due s.status = false ∧
          s' = s.setRequests (r.tick :: rs)) ∧
      s.status = .running ∧ coreStep s' = .next u ∧ t = u.deliver) ∨
    (∃ r rs, s.driver.requests = r :: rs ∧ r.due s.status = true ∧
      perform r.txn (s.setRequests rs) = .next t) := by
  unfold step machineTurn at h
  split at h
  · rename_i hq
    obtain ⟨hr, u, hu, rfl⟩ := coreTurn_cases s t h
    exact .inl ⟨s, u, .inl ⟨rfl, hq⟩, hr, hu, rfl⟩
  · rename_i r rs hq
    split at h
    · rename_i hd
      exact .inr ⟨r, rs, hq, hd, h⟩
    · rename_i hd
      obtain ⟨hr, u, hu, rfl⟩ := coreTurn_cases _ t h
      exact .inl ⟨_, u, .inr ⟨r, rs, hq, by simpa using hd, rfl⟩, by simpa using hr, hu, rfl⟩

end Sys2Proof.Machine
end

