-- ==== Sys2Proof/Laws/HostInterface.lean ====
section
/-! SUPPORT. What the host's transactions can do, said once each. -/

namespace Sys2Proof.Machine

open Sys2Proof

variable (s : State)

/-- A transaction that answers a next state was legal. -/
theorem perform_eq_next (t : Txn) (u : State) :
    perform t s = .next u ↔ legal t.kind s.status = true ∧ transact t s = .next u := by
  unfold perform
  split
  · rename_i h; simp [h]
  · rename_i h; simp [h]

theorem notWord_eq_none (cfg : Config) (vs : List Int) :
    notWord cfg vs = none ↔ ∀ v ∈ vs, cfg.fits v := by
  induction vs with
  | nil => simp [notWord]
  | cons v vs ih =>
    unfold notWord
    split
    · rename_i h
      rw [ih, List.forall_mem_cons]
      exact ⟨fun e => ⟨h, e⟩, fun e => e.2⟩
    · rename_i h
      rw [List.forall_mem_cons]
      exact ⟨fun e => by simp at e, fun e => absurd e.1 h⟩

/-- A port lets through exactly words. -/
theorem State.presented_eq_next (vs : List Int) (r : Result) (u : State) :
    s.presented vs r = .next u ↔ (∀ v ∈ vs, s.cfg.fits v) ∧ r = .next u := by
  unfold State.presented
  rw [← notWord_eq_none s.cfg vs]
  cases notWord s.cfg vs <;> simp

/-- All the load of an image can do. -/
theorem State.loadImage_cases (ws : List Int) (u : State) (h : s.loadImage ws = .next u) :
    (ws.length ≤ s.cfg.memCap ∧ u = ({ s with mem := s.mem.writeAll 0 ws } : State).setStatus .ready) ∨
    (s.cfg.memCap < ws.length ∧ u = s.raise (.addressFault s.cfg.memCap .host)) := by
  unfold State.loadImage at h
  split at h
  · rename_i hl
    simp only [State.commit_error, Host.Outcome.next.injEq] at h
    exact .inr ⟨hl, h.symm⟩
  · rename_i hl
    simp only [State.commit_ok, Host.Outcome.next.injEq] at h
    exact .inl ⟨not_lt.1 hl, h.symm⟩

/-- All LOAD can do. -/
theorem hostLoad_cases (ws : List Int) (u : State) (h : hostLoad ws s = .next u) :
    ws ≠ [] ∧ (∀ v ∈ ws, s.cfg.fits v) ∧ s.loadImage ws = .next u := by
  unfold hostLoad at h
  split at h
  · simp at h
  · obtain ⟨h1, h2⟩ := (s.presented_eq_next _ _ _).1 h
    exact ⟨by simp, h1, h2⟩

theorem parseWord_fits (cfg : Config) (tok : List Char) (v : Int) (h : parseWord cfg tok = some v) :
    cfg.fits v := by
  unfold parseWord at h
  split at h
  · simp at h
  · split at h
    · rename_i hf
      simp only [Option.some.injEq] at h
      exact h ▸ hf
    · simp at h

theorem parseTokens_fits (cfg : Config) (toks : List (List Char)) (ws : List Int)
    (h : parseTokens cfg toks = some ws) : (∀ v ∈ ws, cfg.fits v) ∧ ws.length = toks.length := by
  induction toks generalizing ws with
  | nil =>
    simp only [parseTokens, Option.some.injEq] at h
    subst h
    simp
  | cons tok toks ih =>
    unfold parseTokens at h
    split at h
    · simp at h
    · rename_i v hv
      obtain ⟨vs, hvs, rfl⟩ := Option.map_eq_some_iff.1 h
      obtain ⟨h1, h2⟩ := ih vs hvs
      refine ⟨fun w hw => ?_, by simp [h2]⟩
      rcases List.mem_cons.1 hw with rfl | hw
      · exact parseWord_fits cfg tok _ hv
      · exact h1 w hw

theorem splitCommas_ne_nil (cs : List Char) : splitCommas cs ≠ [] := by
  cases cs with
  | nil => simp [splitCommas]
  | cons c cs =>
    unfold splitCommas
    split
    · simp
    · split <;> simp

/-- What a program text gives is a non-empty sequence of words. -/
theorem parseText_words (cfg : Config) (text : List Char) (ws : List Int)
    (h : parseText cfg text = some ws) : ws ≠ [] ∧ ∀ v ∈ ws, cfg.fits v := by
  obtain ⟨h1, h2⟩ := parseTokens_fits cfg _ ws h
  refine ⟨fun e => ?_, h1⟩
  rw [e] at h2
  exact splitCommas_ne_nil _ (List.length_eq_zero_iff.1 h2.symm)

/-- All the load of a text can do. -/
theorem hostLoadText_cases (text : List Char) (u : State) (h : hostLoadText text s = .next u) :
    (parseText s.cfg text = none ∧ u = s.raise .loadFormat) ∨
    (∃ ws, parseText s.cfg text = some ws ∧ s.loadImage ws = .next u) := by
  unfold hostLoadText at h
  split at h
  · rename_i hp
    simp only [Host.Outcome.next.injEq] at h
    exact .inl ⟨hp, h.symm⟩
  · rename_i ws hp; exact .inr ⟨ws, hp, h⟩

/-- All POKE can do. -/
theorem hostPoke_cases (addr : Int) (v : Int) (u : State) (h : hostPoke addr v s = .next u) :
    s.cfg.fits v ∧
      ((∃ a, checkAddr s.cfg addr .host = .ok a ∧ u = s.store a v) ∨
       (∃ c, checkAddr s.cfg addr .host = .error c ∧ u = s.raise c)) := by
  obtain ⟨h1, h2⟩ := (s.presented_eq_next _ _ _).1 h
  refine ⟨h1 v (by simp), ?_⟩
  rcases s.commit_cases _ u h2 with h' | ⟨c, h', rfl⟩
  · simp only [bind_eq_ok, pure_eq_ok, Except.ok.injEq] at h'
    obtain ⟨a, ha, rfl⟩ := h'
    exact .inl ⟨a, ha, rfl⟩
  · simp only [bind_eq_error, pure_eq_ok, reduceCtorEq, and_false, exists_false, or_false] at h'
    exact .inr ⟨c, h', rfl⟩

/-- All PEEK can do. -/
theorem hostPeek_cases (addr : Int) (u : State) (h : hostPeek addr s = .next u) :
    (∃ a, checkAddr s.cfg addr .host = .ok a ∧ u = s.answer (.peek (s.mem.read a))) ∨
    (∃ c, checkAddr s.cfg addr .host = .error c ∧ u = s.raise c) := by
  rcases s.commit_cases _ u h with h' | ⟨c, h', rfl⟩
  · simp only [bind_eq_ok, pure_eq_ok, Except.ok.injEq] at h'
    obtain ⟨a, ha, rfl⟩ := h'
    exact .inl ⟨a, ha, rfl⟩
  · simp only [bind_eq_error, pure_eq_ok, reduceCtorEq, and_false, exists_false, or_false] at h'
    exact .inr ⟨c, h', rfl⟩

/-- All IN_PUSH can do. -/
theorem hostInPush_cases (v : Int) (u : State) (h : hostInPush v s = .next u) :
    s.cfg.fits v ∧ u = s.pushIn v := by
  obtain ⟨h1, h2⟩ := (s.presented_eq_next _ _ _).1 h
  simp only [Host.Outcome.next.injEq] at h2
  exact ⟨h1 v (by simp), h2.symm⟩

/-- All OUT_POP can do. -/
theorem hostOutPop_cases (u : State) (h : hostOutPop s = .next u) :
    (s.outq = [] ∧ u = s.answer (.outPop none)) ∨
    (∃ v q, s.outq = v :: q ∧ u = (s.setOutq q).answer (.outPop (some v))) := by
  unfold hostOutPop at h
  split at h
  · rename_i hq
    simp only [Host.Outcome.next.injEq] at h
    exact .inl ⟨hq, h.symm⟩
  · rename_i v q hq
    simp only [Host.Outcome.next.injEq] at h
    exact .inr ⟨v, q, hq, h.symm⟩

end Sys2Proof.Machine
end

