-- ==== Sys2Proof/Laws/PerInstr.lean ====
section
/-! SUPPORT. A statement made instruction by instruction: the instruction word of every instruction is a
non-negative number of at most five digits whose two low digits are its opcode (`30_encoding.md` R86, R100;
`00_scope.md` R6). -/

namespace Sys2Proof.Laws.EncodedOpcode

open Sys2Proof

/-- The instruction word is between 0 and 22299 and reads as the instruction's opcode. -/
def Statement (i : Instr) : Prop :=
  0 ≤ encodeWord i ∧ encodeWord i ≤ 22299 ∧ (encodeWord i).toNat % 100 = i.opcode

theorem add (a b dst : Mode) : Statement (.add a b dst) := by
  cases a <;> cases b <;> cases dst <;> (unfold Statement; decide)

theorem mul (a b dst : Mode) : Statement (.mul a b dst) := by
  cases a <;> cases b <;> cases dst <;> (unfold Statement; decide)

theorem input (dst : Mode) : Statement (.input dst) := by
  cases dst <;> (unfold Statement; decide)

theorem output (a : Mode) : Statement (.output a) := by
  cases a <;> (unfold Statement; decide)

theorem jumpIfTrue (a t : Mode) : Statement (.jumpIfTrue a t) := by
  cases a <;> cases t <;> (unfold Statement; decide)

theorem jumpIfFalse (a t : Mode) : Statement (.jumpIfFalse a t) := by
  cases a <;> cases t <;> (unfold Statement; decide)

theorem lessThan (a b dst : Mode) : Statement (.lessThan a b dst) := by
  cases a <;> cases b <;> cases dst <;> (unfold Statement; decide)

theorem equals (a b dst : Mode) : Statement (.equals a b dst) := by
  cases a <;> cases b <;> cases dst <;> (unfold Statement; decide)

theorem adjustBase (a : Mode) : Statement (.adjustBase a) := by
  cases a <;> (unfold Statement; decide)

theorem halt : Statement .halt := by unfold Statement; decide

end Sys2Proof.Laws.EncodedOpcode
end

