-- ==== Sys2Proof/Laws/System.lean ====
section
/-! SUPPORT. What the operations over several Computers answer, said once (`10_state.md` R35, `20_memory.md` R75,
`47_host_interface.md` R198). -/

namespace Sys2Proof.Machine

/-- A turn of Computer `k` is a step of it, and replaces it alone. -/
theorem System.turn_eq_some (k : Nat) (sys sys' : System) :
    System.turn k sys = some sys' ↔ ∃ s t, sys[k]? = some s ∧ step s = .next t ∧ sys' = sys.set k t := by
  unfold System.turn
  cases sys[k]? with
  | none => simp
  | some s => cases h : step s <;> simp [h, eq_comm]

/-- A transaction on Computer `k` is one of its host, and replaces it alone. -/
theorem System.transact_eq_some (k : Nat) (x : Txn) (sys sys' : System) :
    System.transact k x sys = some sys' ↔
      ∃ s t, sys[k]? = some s ∧ perform x s = .next t ∧ sys' = sys.set k t := by
  unfold System.transact
  cases sys[k]? with
  | none => simp
  | some s => cases h : perform x s <;> simp [h, eq_comm]

/-- A schedule runs through where its first turn does and the rest does after it. -/
theorem System.run_cons (k : Nat) (ks : List Nat) (sys sys' : System) :
    System.run (k :: ks) sys = some sys' ↔
      ∃ sys₁, System.turn k sys = some sys₁ ∧ System.run ks sys₁ = some sys' := by
  simp only [System.run]
  cases System.turn k sys <;> simp

/-- A hand-off from a Computer whose OUTQ is empty is the OUT_POP alone. -/
theorem System.handOff_empty (i j : Nat) (sys : System) (a : State) (h : sys[i]? = some a)
    (ho : a.outq = []) : System.handOff i j sys = System.transact i .outPop sys := by
  simp only [System.handOff, h, ho]

/-- A hand-off from a Computer with a value in OUTQ is the OUT_POP, then the IN_PUSH of its oldest value. -/
theorem System.handOff_cons (i j : Nat) (sys : System) (a : State) (v : Int) (q : List Int)
    (h : sys[i]? = some a) (ho : a.outq = v :: q) (sys' : System) :
    System.handOff i j sys = some sys' ↔
      ∃ sys₁, System.transact i .outPop sys = some sys₁ ∧
        System.transact j (.inPush v) sys₁ = some sys' := by
  simp only [System.handOff, h, ho]
  cases System.transact i .outPop sys <;> simp

end Sys2Proof.Machine
end

