-- ==== Sys2Proof/Tests/Slice0.lean ====
section
/-! SUPPORT. Tests on fixed values, with the expected results of `95_test_vectors.md` or of the rule named, and a
witness for every statement that has hypotheses. -/

namespace Sys2Proof.Tests

open Sys2Proof Sys2Proof.Machine

/-- The next state of a result, if it is one. -/
def after (r : Result) : Option State :=
  match r with
  | .next t => some t
  | .fault _ => none
  | .refused _ => none

/-- A small running Computer: W = 16, MEM_CAP = 64, some words from address 0. -/
def tiny (ws : List Int) : State :=
  { cfg := { wordBits := 16, memCap := 64 }, mem := Memory.writeAll [] 0 ws, pc := 0, fp := 0, inq := [],
    outq := [], status := .running, driver := { requests := [], replies := [] } }

/-- What one step of the machine makes of a state. -/
def stepped (s : State) : Option State := after (step s)

/-! ### Well-formedness: an ill-formed term for each check -/

theorem test_config_too_narrow : ¬ Config.WellFormed { wordBits := 15, memCap := 8 } := by decide
theorem test_config_no_memory : ¬ Config.WellFormed { wordBits := 16, memCap := 0 } := by decide
theorem test_config_too_large : ¬ Config.WellFormed { wordBits := 16, memCap := 32769 } := by decide
theorem test_config_largest : Config.WellFormed { wordBits := 16, memCap := 32768 } := by decide
theorem test_code_missing_operand :
    ¬ Code.WellFormed { wordBits := 16, memCap := 8 } { instr := .output .position, operands := [] } := by
  decide
theorem test_code_operand_too_big :
    ¬ Code.WellFormed { wordBits := 16, memCap := 8 } { instr := .output .position, operands := [32768] } := by
  decide
theorem test_image_empty : ¬ Config.ImageWellFormed { wordBits := 16, memCap := 2 } [] := by decide
theorem test_image_not_words : ¬ Config.ImageWellFormed { wordBits := 16, memCap := 2 } [-32769] := by decide
theorem test_image_too_long : ¬ Config.ImageWellFormed { wordBits := 16, memCap := 2 } [1, 2, 3] := by decide

/-! ### Decoding: words written out digit by digit from `30_encoding.md` R81 and R86 (`ABCDE`) -/

/-- 2 1 0 01. -/
theorem test_decode_add : decodeWord 21001 = .ok (.add .position .immediate .relative) := by decide
/-- 0 1 0 02 (section 2.1). -/
theorem test_decode_mul : decodeWord 1002 = .ok (.mul .position .immediate .position) := by decide
/-- 1 03. -/
theorem test_decode_input : decodeWord 103 = .ok (.input .immediate) := by decide
/-- 2 04 (section 2.1). -/
theorem test_decode_output : decodeWord 204 = .ok (.output .relative) := by decide
/-- 2 1 05. -/
theorem test_decode_jump_if_true : decodeWord 2105 = .ok (.jumpIfTrue .immediate .relative) := by decide
/-- 1 0 06 (section 2.1). -/
theorem test_decode_jump_if_false : decodeWord 1006 = .ok (.jumpIfFalse .position .immediate) := by decide
/-- 0 2 1 07. -/
theorem test_decode_less_than : decodeWord 2107 = .ok (.lessThan .immediate .relative .position) := by decide
/-- 2 2 2 08 (section 2.1). -/
theorem test_decode_equals : decodeWord 22208 = .ok (.equals .relative .relative .relative) := by decide
/-- 1 09 (section 2.1). -/
theorem test_decode_adjust_base : decodeWord 109 = .ok (.adjustBase .immediate) := by decide
/-- Digits above the opcode are ignored (section 2.1). -/
theorem test_decode_halt : decodeWord 12399 = .ok .halt := by decide
/-- The lowest offending operand is named (section 2.1). -/
theorem test_decode_illegal_mode : decodeWord 93301 = .error (.illegalMode 93301 0) := by decide
/-- A zero word is illegal, not a no-op (R87). -/
theorem test_decode_zero : decodeWord 0 = .error (.illegalOpcode 0) := by decide
/-- The host's numbering of the table's rows: the first word is the lowest. -/
theorem test_decode_table_word : decodeTableWord 8 99 = some .halt := by decide
/-- A numbered instruction is the first the machine runs after reset. -/
theorem test_fetch_word :
    (stepped (State.reset.withFetchWord 8 4)).map (fun t => (t.outq, t.pc)) = some ([4], 2) := by decide

/-! ### One step each (`95_test_vectors.md` sections 1 and 2) -/

/-- Section 1.1, step 1. -/
theorem test_add : (stepped (tiny [1, 9, 10, 3, 2, 3, 11, 0, 99, 30, 40, 50])).map
    (fun t => (t.mem.read 3, t.pc)) = some (70, 4) := by decide
/-- Section 2.3: MAX + 1. -/
theorem test_add_overflow : (stepped (tiny [1101, 32767, 1, 0])).map (fun t => (t.status, t.pc)) =
    some (.faulted (.arithOverflow 1), 0) := by decide
/-- Section 2.3. -/
theorem test_mul : (stepped (tiny [1102, -3, 4, 5, 0, 0])).map (fun t => t.mem.read 5) = some (-12) := by
  decide
/-- Section 2.3: MIN * 1 fits. -/
theorem test_mul_min : (stepped (tiny [1102, -32768, 1, 5, 0, 0])).map (fun t => t.mem.read 5) =
    some (-32768) := by decide
/-- Section 2.2: an immediate write goes to the operand's own slot. -/
theorem test_input : (stepped { tiny [103, 0, 99] with inq := [77] }).map
    (fun t => (t.mem.read 1, t.inq, t.pc)) = some (77, [], 2) := by decide
/-- Section 2.4: on an empty queue the bad address is not looked at. -/
theorem test_input_empty : (stepped (tiny [3, -1])).map (fun t => (t.status, t.pc)) =
    some (.interrupted .needsInput, 0) := by decide
/-- Section 2.4. -/
theorem test_output : (stepped (tiny [10004, 0, 99])).map (fun t => (t.outq, t.pc, t.driver.replies)) =
    some ([10004], 2, [.run (.interrupted .producedOutput)]) := by decide
/-- Section 2.2: a relative address below 0. -/
theorem test_output_fault : (stepped { tiny [109, -1, 204, 0] with pc := 2, fp := -1 }).map
    (fun t => (t.fcause, t.finfo, t.outq, t.pc)) = some (some 3, some (.address (-1) .dataRead), [], 2) := by
  decide
/-- Section 2.5. -/
theorem test_jump_if_true : (stepped (tiny [1105, -3, 4, 99])).map (fun t => t.pc) = some 4 := by decide
/-- Section 2.5: a negative target of a taken jump. -/
theorem test_jump_if_true_negative : (stepped (tiny [1105, 1, -7])).map (fun t => (t.status, t.pc)) =
    some (.faulted (.addressFault (-7) .jumpTarget), 0) := by decide
/-- Section 2.5. -/
theorem test_jump_if_false : (stepped (tiny [1106, 0, 4, 99])).map (fun t => t.pc) = some 4 := by decide
/-- Section 2.5. -/
theorem test_jump_if_false_not_taken : (stepped (tiny [1106, 5, 4, 99])).map (fun t => t.pc) = some 3 := by
  decide
/-- Section 2.6: MIN < MAX, the destination a source cell. -/
theorem test_less_than : (stepped (tiny [7, 5, 6, 5, 99, -32768, 32767])).map
    (fun t => (t.mem.read 5, t.pc)) = some (1, 4) := by decide
/-- Section 2.6. -/
theorem test_less_than_equal : (stepped (tiny [1107, 3, 3, 5, 99, -1])).map (fun t => t.mem.read 5) =
    some 0 := by decide
/-- Section 2.6. -/
theorem test_equals : (stepped (tiny [1108, 3, 3, 5, 99, -1])).map (fun t => t.mem.read 5) = some 1 := by
  decide
/-- Section 2.6. -/
theorem test_equals_not : (stepped (tiny [1108, 3, 4, 5, 99, -1])).map (fun t => t.mem.read 5) = some 0 := by
  decide
/-- Section 2.2: the operand is resolved with the old fp. -/
theorem test_adjust_base : (stepped { tiny [209, -1, 0, 42] with fp := 4 }).map (fun t => (t.fp, t.pc)) =
    some (46, 2) := by decide
/-- Section 2.7: MAX + 1. -/
theorem test_adjust_base_overflow : (stepped { tiny [109, 1] with fp := 32767 }).map
    (fun t => (t.status, t.fp)) = some (.faulted (.arithOverflow 9), 32767) := by decide
/-- Section 2.8. -/
theorem test_halt : (stepped (tiny [12399])).map (fun t => (t.status, t.pc)) = some (.halted, 0) := by decide
/-- Section 2.2: the third operand slot is past the end of memory. -/
theorem test_operand_slot : (stepped { tiny [1, 0, 0] with cfg := { wordBits := 16, memCap := 3 } }).map
    (fun t => t.status) = some (.faulted (.addressFault 3 .operandSlot)) := by decide
/-- Section 2.4: a fetch past the end of memory. -/
theorem test_fetch_fault : (stepped { tiny [4, 0] with cfg := { wordBits := 16, memCap := 2 }, pc := 2 }).map
    (fun t => t.status) = some (.faulted (.addressFault 2 .fetch)) := by decide

/-! ### Host transactions (`95_test_vectors.md` section 2.9) -/

/-- A Computer after reset, W = 16, MEM_CAP = 8. -/
def fresh : State := State.resetOf { wordBits := 16, memCap := 8 } { requests := [], replies := [] }

theorem test_load_text : (after (perform (.loadText ['0', '0', '7', ',', '-', '0', ',', '9', '9', '\n']) fresh)).map
    (fun t => (t.mem.read 0, t.mem.read 1, t.mem.read 2, t.status)) = some (7, 0, 99, .ready) := by decide
theorem test_load_text_empty_token : (after (perform (.loadText ['1', ',', ',', '2']) fresh)).map
    (fun t => t.status) = some (.faulted .loadFormat) := by decide
theorem test_load_text_two_newlines : (after (perform (.loadText ['1', '\n', '\n']) fresh)).map
    (fun t => t.status) = some (.faulted .loadFormat) := by decide
theorem test_load_too_long : (after (perform (.load [1, 2, 3])
    { fresh with cfg := { wordBits := 16, memCap := 2 } })).map (fun t => t.status) =
    some (.faulted (.addressFault 2 .host)) := by decide
theorem test_load_keeps_input : (after (perform (.load [3, 3, 99, 0]) { fresh with inq := [4] })).map
    (fun t => (t.inq, t.status)) = some ([4], .ready) := by decide
theorem test_poke : (after (perform (.poke 7 1) { fresh with status := .ready })).map
    (fun t => (t.mem.read 7, t.status)) = some (1, .ready) := by decide
theorem test_poke_fault : (after (perform (.poke 8 1) { fresh with status := .ready })).map
    (fun t => t.status) = some (.faulted (.addressFault 8 .host)) := by decide
theorem test_run_refused_in_booting : after (perform .run fresh) = none := by decide
theorem test_run_refused_in_halted : after (perform .run { fresh with status := .halted }) = none := by decide
/-- A request with a delay lets the core take its steps first (`47_host_interface.md` R196). -/
theorem test_delayed_request : (stepped { tiny [1105, 1, 0] with
      driver := { requests := [{ txn := .inPush 5, delay := some 1 }], replies := [] } }).map
    (fun t => (t.inq, t.driver.requests)) = some ([], [{ txn := .inPush 5, delay := some 0 }]) := by decide

/-! ### Witnesses: for every statement with hypotheses, a state and operands that meet them all -/

/-- The least and the greatest parameters of one width. -/
theorem witness_ResetMeetsTheInvariants : Config.WellFormed { wordBits := 16, memCap := 1 } ∧
    Config.WellFormed { wordBits := 16, memCap := 32768 } := by decide
theorem witness_StepKeepsTheInvariant : (tiny [1, 9, 10, 3]).Inv ∧ (stepped (tiny [1, 9, 10, 3])).isSome := by
  decide
theorem witness_StepKeepsTheBootInvariant :
    { fresh with driver := { requests := [{ txn := .load [99], delay := none }], replies := [] } }.BootInv ∧
    (stepped { fresh with driver := { requests := [{ txn := .load [99], delay := none }], replies := [] } }).map
      (fun t => t.status) = some .ready := by decide
theorem witness_ParametersNeverChange : (stepped (tiny [99])).isSome := by decide
theorem witness_EncodedCodeDecodesBack :
    Code.WellFormed { wordBits := 16, memCap := 8 } { instr := .output .immediate, operands := [-1] } := by
  decide
theorem witness_InstructionWordsFitEveryLegalWidth : Config.WellFormed { wordBits := 16, memCap := 1 } := by
  decide
theorem witness_CanonicalMemoriesReadingAlikeAreEqual : Memory.wf [(0, 1), (2, -1)] := by decide
/-- The two sides of the slot's bound, and an address at each bound. -/
theorem witness_EffectiveAddressByMode :
    (tiny [4, 0]).pc + 1 + 62 < (tiny [4, 0]).cfg.memCap ∧ (tiny [4, 0]).cfg.memCap ≤ (tiny [4, 0]).pc + 1 + 63 ∧
    (tiny [4, 63]).mem.read ((tiny [4, 63]).pc + 1 + 0) = 63 ∧
    (tiny [4, 64]).mem.read ((tiny [4, 64]).pc + 1 + 0) = 64 := by decide
theorem witness_SourceValueByMode : (tiny [4, 63]).val 0 .position = .ok 0 ∧
    (tiny [4, 63]).mem.read ((tiny [4, 63]).pc + 1 + 0) = ((63 : Nat) : Int) := by decide
theorem witness_DestinationAddressByMode : (tiny [3, 63]).dst 0 .position = .ok 63 ∧
    (tiny [3, 63]).dst 0 .immediate = .ok 1 := by decide
/-- For AddCompletes, MulCompletes, LessThanCompletes and EqualsCompletes. -/
theorem witness_ThreeOperandCompletes : (tiny [1, 4, 5, 6, 181, 181]).val 0 .position = .ok 181 ∧
    (tiny [1, 4, 5, 6, 181, 181]).val 1 .position = .ok 181 ∧
    (tiny [1, 4, 5, 6, 181, 181]).dst 2 .position = .ok 6 ∧
    (tiny [1, 4, 5, 6, 181, 181]).cfg.fits (181 + 181) ∧
    (tiny [1, 4, 5, 6, 181, 181]).cfg.fits (181 * 181) := by decide
theorem witness_InputCompletes : { tiny [3, 9] with inq := [8] }.inq = [8] ∧
    { tiny [3, 9] with inq := [8] }.dst 0 .position = .ok 9 := by decide
theorem witness_InputSuspendsOnAnEmptyQueue : (tiny [3, 9]).inq = [] := by decide
theorem witness_OutputCompletes : (tiny [204, -1]).val 0 .immediate = .ok (-1) := by decide
/-- For both jumps, taken to the least target and not taken. -/
theorem witness_JumpsComplete : (tiny [1105, 1, 0]).val 0 .immediate = .ok 1 ∧
    (tiny [1105, 1, 0]).val 1 .immediate = .ok 0 ∧ (tiny [1105, 0, 0]).val 0 .immediate = .ok 0 := by decide
theorem witness_AdjustBaseCompletes : (tiny [109, 32767]).val 0 .immediate = .ok 32767 ∧
    (tiny [109, 32767]).cfg.fits ((tiny [109, 32767]).fp + 32767) := by decide
/-- An operand that faults in each of the three places. -/
theorem witness_ThreeOperandFaultOrder :
    (tiny [1, -1, 0, 0]).val 0 .position = .error (.addressFault (-1) .dataRead) ∧
    (tiny [1, 0, -1, 0]).val 0 .position = .ok 1 ∧
    (tiny [1, 0, -1, 0]).val 1 .position = .error (.addressFault (-1) .dataRead) ∧
    (tiny [1, 0, 0, 64]).val 1 .position = .ok 1 ∧
    (tiny [1, 0, 0, 64]).dst 2 .position = .error (.addressFault 64 .dataWrite) := by decide
theorem witness_ArithmeticOverflowIsFatal : (tiny [1101, 32767, 2, 0]).val 0 .immediate = .ok 32767 ∧
    (tiny [1101, 32767, 2, 0]).val 1 .immediate = .ok 2 ∧ (tiny [1101, 32767, 2, 0]).dst 2 .position = .ok 0 ∧
    ¬ (tiny []).cfg.fits (32767 + 2) ∧ ¬ (tiny []).cfg.fits (32767 * 2) ∧
    ¬ (tiny []).cfg.fits ({ tiny [] with fp := 1 }.fp + 32767) := by decide
theorem witness_SourceOnlyFaultOrder :
    (tiny [5, -1, 0]).val 0 .position = .error (.addressFault (-1) .dataRead) ∧
    (tiny [105, 0, -1]).val 0 .immediate = .ok 0 ∧
    (tiny [105, 0, -1]).val 1 .position = .error (.addressFault (-1) .dataRead) ∧
    (tiny [1105, 1, -1]).val 0 .immediate = .ok 1 ∧ (tiny [1105, 1, -1]).val 1 .immediate = .ok (-1) := by decide
theorem witness_InputFaultLeavesTheValueQueued : { tiny [3, -1] with inq := [5] }.inq ≠ [] ∧
    { tiny [3, -1] with inq := [5] }.dst 0 .position = .error (.addressFault (-1) .dataWrite) := by decide
/-- Of an instruction, of a step's decode, and of a transaction. -/
theorem witness_ConditionsEachStepCanRaise :
    (after (exec (.output .position) (tiny [4, -1]))).map (fun t => t.status) =
      some (.faulted (.addressFault (-1) .dataRead)) ∧
    (after (coreStep (tiny [0]))).map (fun t => t.status) = some (.faulted (.illegalOpcode 0)) ∧
    (after (perform (.peek 8) { fresh with status := .halted })).map (fun t => t.status) =
      some (.faulted (.addressFault 8 .host)) := by decide
theorem witness_StepRunsTheDecodedInstruction : (tiny [99]).status = .running ∧
    (tiny [99]).pc < (tiny [99]).cfg.memCap ∧ decodeWord ((tiny [99]).mem.read (tiny [99]).pc) = .ok .halt ∧
    (tiny [99]).driver.requests = [] ∧
    { tiny [99] with driver := { requests := [{ txn := .run, delay := none }], replies := [] } }.driver.requests =
      [{ txn := .run, delay := none }] := by decide
/-- Due because the core is not Running, and due because nothing is left to wait for. -/
theorem witness_StepPerformsTheDueRequest :
    { fresh with driver := { requests := [{ txn := .load [99], delay := none }], replies := [] } }.status ≠ .running ∧
    { tiny [99] with driver := { requests := [{ txn := .outPop, delay := some 0 }], replies := [] } }.driver.requests =
      [{ txn := .outPop, delay := some 0 }] := by decide
theorem witness_FetchAndDecodeFaults : { tiny [] with pc := 64 }.cfg.memCap ≤ { tiny [] with pc := 64 }.pc ∧
    (tiny [301]).pc < (tiny [301]).cfg.memCap ∧
    decodeWord ((tiny [301]).mem.read (tiny [301]).pc) = .error (.illegalMode 301 0) ∧
    decodeWord ((tiny [-1]).mem.read (tiny [-1]).pc) = .error (.illegalOpcode (-1)) := by decide
theorem witness_FatalConditionsArePrecise : (tiny [0]).status = .running ∧
    (after (coreStep (tiny [0]))).map (fun t => t.status) = some (.faulted (.illegalOpcode 0)) ∧
    (after (perform (.loadText ['+']) fresh)).map (fun t => t.status) = some (.faulted .loadFormat) ∧
    { fresh with status := .faulted .loadFormat }.status = .faulted .loadFormat := by decide
theorem witness_StateChangesOnlyByTheTable : (stepped (tiny [4, 0])).map (fun t => t.status) =
    some (.interrupted .producedOutput) := by decide
/-- A completed step, one that raises in its operand, and one that raises in its decode. -/
theorem witness_PcAfterAStep : (tiny [1105, 1, 7]).status = .running ∧
    (tiny [1105, 1, 7]).fetchDecode = .ok (.jumpIfTrue .immediate .immediate) ∧
    (after (coreStep (tiny [1105, 1, 7]))).map (fun t => (t.status, t.pc)) = some (.running, 7) ∧
    (after (coreStep { tiny [3, -1] with inq := [5] })).map (fun t => (t.status, t.pc)) =
      some (.faulted (.addressFault (-1) .dataWrite), 0) ∧
    (after (coreStep (tiny [0]))).map (fun t => (t.status, t.pc)) =
      some (.faulted (.illegalOpcode 0), 0) := by decide
theorem witness_FpChangesOnlyByAdjustBase :
    (after (coreStep (tiny [109, 1]))).map (fun t => t.fp) = some 1 ∧
    (after (perform .reset { tiny [109, 1] with fp := 1 })).map (fun t => t.fp) = some 0 := by decide
/-- An instruction with a destination (resolved, and not), and one without. -/
theorem witness_MemoryChangesOnlyAtTheDestination :
    (after (exec (.equals .immediate .immediate .position) (tiny [1108, 3, 3, 5]))).isSome ∧
    (tiny [1108, 3, 3, 5]).dst 2 .position = .ok 5 ∧
    (after (exec (.equals .immediate .immediate .position) (tiny [1108, 3, 3, -5]))).isSome ∧
    (tiny [1108, 3, 3, -5]).dst 2 .position = .error (.addressFault (-5) .dataWrite) ∧
    (after (exec .halt (tiny [99]))).isSome ∧ Instr.halt.destination = none := by decide
theorem witness_QueuesChangeOnlyByInputAndOutput :
    (after (exec (.input .position) { tiny [3, 9] with inq := [8, 7] })).map (fun t => (t.inq, t.outq)) =
      some ([7], []) ∧
    (after (exec (.output .position) (tiny [4, 0]))).map (fun t => (t.inq, t.outq)) = some ([], [4]) := by decide
/-- A word that is a legal sum and a legal product, and an input over the next word. -/
theorem witness_StoreIsSeenByTheNextFetch : (tiny [1101, 100, 4, 4]).val 0 .immediate = .ok 100 ∧
    (tiny [1101, 100, 4, 4]).val 1 .immediate = .ok 4 ∧
    (tiny [1101, 100, 4, 4]).dst 2 .position = .ok ((tiny [1101, 100, 4, 4]).pc + 4) ∧
    (tiny [1101, 100, 4, 4]).cfg.fits (100 + 4) ∧ (tiny [1101, 100, 4, 4]).cfg.fits (100 * 4) ∧
    { tiny [3, 2] with inq := [99] }.inq = [99] ∧
    { tiny [3, 2] with inq := [99] }.dst 0 .position = .ok ({ tiny [3, 2] with inq := [99] }.pc + 2) := by decide
/-- A span that ends with an output, and one that is still running. -/
theorem witness_OneOutputPerRunSpan : (tiny [1105, 1, 3, 104, 7]).status = .running ∧
    (after (runLoop 2 (tiny [1105, 1, 3, 104, 7]))).map (fun t => (t.status, t.outq)) =
      some (.interrupted .producedOutput, [7]) ∧
    (after (runLoop 1 (tiny [1105, 1, 3, 104, 7]))).map (fun t => (t.status, t.outq)) = some (.running, []) := by
  decide
/-- For BlockedRunChangesNothing. -/
theorem witness_BlockedRunChangesNothing :
    { tiny [3, 9] with status := .interrupted .needsInput }.status = .interrupted .needsInput ∧
    { tiny [3, 9] with status := .interrupted .needsInput }.inq = [] ∧
    { tiny [3, 9] with status := .interrupted .needsInput }.fetchDecode = .ok (.input .position) := by decide
/-- With two RUNs asked. -/
theorem witness_BlockedRunsAreAllAnsweredNeedsInput :
    { tiny [3, 9] with status := .interrupted .needsInput, driver :=
      { requests := [{ txn := .run, delay := none }, { txn := .run, delay := none }], replies := [] } }.driver.requests =
      List.replicate 2 { txn := .run, delay := none } ∧
    { tiny [3, 9] with status := .interrupted .needsInput, driver :=
      { requests := [{ txn := .run, delay := none }, { txn := .run, delay := none }], replies := [] } }.fetchDecode =
      .ok (.input .position) := by decide
theorem witness_InPushCommutesWithAStep : { tiny [3, 9] with inq := [8] }.inq ≠ [] ∧
    (after (coreStep { tiny [3, 9] with inq := [8] })).isSome := by decide
theorem witness_OutputQueueIsInvisibleToTheProgram : (after (coreStep (tiny [4, 0]))).isSome := by decide
/-- An image that fills memory, and one that is a word too long. -/
theorem witness_LoadOutcomes : fresh.status = .booting ∧
    fresh.cfg.ImageWellFormed [1, 2, 3, 4, 5, 6, 7, 8] ∧
    fresh.cfg.memCap < [1, 2, 3, 4, 5, 6, 7, 8, 9].length ∧
    (∀ v ∈ [1, 2, 3, 4, 5, 6, 7, 8, 9], fresh.cfg.fits v) := by decide

/-- The text `7` is a text of the grammar. -/
theorem seven_isText : IsText ['7'] [7] :=
  ⟨['7'], [], [], 7, [], ⟨7, .inl ⟨⟨[7], by simp, by simp, rfl, rfl⟩, rfl⟩⟩, .done, .inl rfl, rfl, rfl⟩

theorem witness_LoadOfATextIsLoadOfItsWords : fresh.status = .booting ∧ IsText ['7'] [7] ∧
    (∀ v ∈ [7], fresh.cfg.fits v) := ⟨rfl, seven_isText, by decide⟩

/-- The empty text is no text of the grammar. -/
theorem witness_LoadOfATextRejects : ¬ ∃ ws, IsText [] ws ∧ ∀ v ∈ ws, fresh.cfg.fits v := by
  rintro ⟨ws, ⟨tok, rest, nl, v, vs, h, _, _, e, _⟩, _⟩
  have ht : tok = [] := by
    cases tok with
    | nil => rfl
    | cons c cs => simp at e
  obtain ⟨n, ⟨⟨ds, hd, _, hm, _⟩, _⟩ | ⟨ds, hm, _⟩⟩ := h
  · rw [ht] at hm
    exact hd (by simpa using hm.symm)
  · rw [ht] at hm
    cases hm

theorem witness_LoadedTextReadsBack : fresh.status = .booting ∧ fresh.BootInv ∧ IsText ['7'] [7] ∧
    fresh.cfg.ImageWellFormed [7] := ⟨rfl, by decide, seven_isText, by decide⟩
/-- For PokeOutcomes and PeekOutcomes: the last address, and the two just outside. -/
theorem witness_PokeAndPeekOutcomes : { fresh with status := .ready }.status = .ready ∧ fresh.cfg.fits 5 ∧
    (7 : Int) < (fresh.cfg.memCap : Int) ∧ (fresh.cfg.memCap : Int) ≤ 8 ∧ (-1 : Int) < 0 := by decide
theorem witness_InPushAppendsToInq : fresh.cfg.fits 5 ∧ fresh.status = .booting ∧
    { fresh with status := .faulted .loadFormat }.status = .faulted .loadFormat := by decide
/-- For OutPopTakesTheOldest. -/
theorem witness_OutPopTakesTheOldest : { fresh with outq := [1, 2] }.status = .booting ∧
    { fresh with outq := [1, 2] }.outq = [1, 2] ∧ fresh.outq = [] := by decide
theorem witness_RunResumesTheEngine : { fresh with status := .ready }.status = .ready ∧
    { fresh with status := .interrupted .producedOutput }.status = .interrupted .producedOutput := by decide
/-- Of three Computers: the third hands to the first, to itself, and the first has nothing to hand on. -/
theorem witness_HandOffMovesTheOldestValue :
    [tiny [99], tiny [4], { tiny [99] with outq := [6] }][2]? = some { tiny [99] with outq := [6] } ∧
    { tiny [99] with outq := [6] }.outq = [6] ∧ (tiny [99]).cfg.fits 6 ∧ (tiny [99]).status = .running ∧
    (System.handOff 2 0 [tiny [99], tiny [4], { tiny [99] with outq := [6] }]).map
      (fun sys => sys.map (fun s => (s.inq, s.outq))) = some [([6], []), ([], []), ([], [])] ∧
    (System.handOff 2 2 [tiny [99], tiny [4], { tiny [99] with outq := [6] }]).map
      (fun sys => sys.map (fun s => (s.inq, s.outq))) = some [([], []), ([], []), ([6], [])] ∧
    [tiny [99], tiny [4]][0]? = some (tiny [99]) ∧ (tiny [99]).outq = [] := by decide
/-- Two Computers, three turns. -/
theorem witness_ComputersAreIndependent :
    (System.run [0, 1, 0] [tiny [1105, 1, 3, 99], tiny [104, 7]]).isSome := by decide

end Sys2Proof.Tests
end

/-! # Proofs: the word bounds of legal parameters, and what every step keeps -/

/-! ## Word bounds of legal parameters (`00_scope.md` R6) -/

namespace Sys2Proof

open Sys2Proof.Machine

variable {cfg : Config} {v : Int}

theorem Config.WellFormed.le_two_pow (h : cfg.WellFormed) : 2 ^ 15 ≤ 2 ^ (cfg.wordBits - 1) :=
  Nat.pow_le_pow_right (by decide) (Nat.le_sub_one_of_lt h.1)

theorem Config.WellFormed.le_maxWord (h : cfg.WellFormed) : 32767 ≤ cfg.maxWord := by
  have hpow := h.le_two_pow
  unfold Config.maxWord maxOfBits
  omega

/-- Four words past the last cell, the farthest a sequential advance reaches, pc still has W bits. -/
theorem Config.WellFormed.memCap_add_four_le (h : cfg.WellFormed) :
    cfg.memCap + 4 ≤ 2 ^ cfg.wordBits := by
  have hpow := h.le_two_pow
  obtain ⟨hbits, -, hcap⟩ := h
  have hdouble : 2 ^ cfg.wordBits = 2 * 2 ^ (cfg.wordBits - 1) :=
    (mul_pow_sub_one (by omega) 2).symm
  omega

theorem Config.toNat_lt_two_pow_of_fits (h : cfg.fits v) : v.toNat < 2 ^ cfg.wordBits := by
  have hmax : v ≤ ((2 ^ (cfg.wordBits - 1) : Nat) : Int) - 1 := h.2
  have hhalf : 2 ^ (cfg.wordBits - 1) ≤ 2 ^ cfg.wordBits :=
    Nat.pow_le_pow_right (by decide) (Nat.sub_le _ _)
  have hpos : 0 < 2 ^ cfg.wordBits := Nat.two_pow_pos _
  omega

/-- The support's statement about single instructions, of every instruction. -/
theorem encodedOpcode_statement (i : Instr) : Laws.EncodedOpcode.Statement i := by
  cases i with
  | add a b d => exact Laws.EncodedOpcode.add a b d
  | mul a b d => exact Laws.EncodedOpcode.mul a b d
  | input d => exact Laws.EncodedOpcode.input d
  | output a => exact Laws.EncodedOpcode.output a
  | jumpIfTrue a t => exact Laws.EncodedOpcode.jumpIfTrue a t
  | jumpIfFalse a t => exact Laws.EncodedOpcode.jumpIfFalse a t
  | lessThan a b d => exact Laws.EncodedOpcode.lessThan a b d
  | equals a b d => exact Laws.EncodedOpcode.equals a b d
  | adjustBase a => exact Laws.EncodedOpcode.adjustBase a
  | halt => exact Laws.EncodedOpcode.halt

/-- Settles O11: an instruction word is at most 22299, and a word of 16 bits or more reaches 32767. -/
theorem instructionWordsFitEveryLegalWidth : Obligations.InstructionWordsFitEveryLegalWidth := by
  intro cfg i hcfg
  obtain ⟨hnonneg, hle, -⟩ := encodedOpcode_statement i
  have hmin : cfg.minWord ≤ 0 := (fits_zero cfg).1
  have hmax := hcfg.le_maxWord
  exact ⟨by omega, by omega⟩

end Sys2Proof

namespace Sys2Proof.Machine

open Sys2Proof

variable {s t : State}

/-! ## Packaging a step: what the core and the host keep, a step keeps -/

theorem hostReset_cases (h : hostReset s = .next t) : t = s.toReset :=
  (Host.Outcome.next.inj h).symm

theorem hostRun_cases (h : hostRun s = .next t) : t = s.resume :=
  (Host.Outcome.next.inj h).symm

/-- A property of states that the host's lists do not matter to, and that every instruction, every fatal
condition and every transaction keeps, is kept by every step. -/
theorem step_keeps {P : State → Prop}
    (hrequests : ∀ s rs, P s → P (s.setRequests rs)) (hdeliver : ∀ s, P s → P s.deliver)
    (hraise : ∀ s c, P s → P (s.raise c)) (hexec : ∀ i s t, P s → exec i s = .next t → P t)
    (hperform : ∀ x s t, P s → perform x s = .next t → P t)
    (h : P s) (ht : step s = .next t) : P t := by
  rcases step_cases s t ht with ⟨s', u, hs', -, hu, rfl⟩ | ⟨r, rs, -, -, hp⟩
  · have h' : P s' := by
      rcases hs' with ⟨rfl, -⟩ | ⟨r, rs, -, -, rfl⟩
      · exact h
      · exact hrequests s _ h
    rcases coreStep_cases s' u hu with ⟨i, -, hi⟩ | ⟨c, -, rfl⟩
    · exact hdeliver u (hexec i s' u h' hi)
    · exact hdeliver _ (hraise s' c h')
  · exact hperform _ _ t (hrequests s rs h) hp

/-! ## The parameters and the host's lists (log 1) -/

theorem State.threeOperand_sameSurroundings {ma mb md : Mode} {op : Int → Int → Except FatalCondition Int}
    (ht : s.threeOperand ma mb md op = .next t) : SameSurroundings s t := by
  rcases s.threeOperand_cases ma mb md op t ht with ⟨a, b, d, r, -, -, -, -, rfl⟩ | ⟨c, rfl, -⟩
  · exact ⟨rfl, rfl⟩
  · exact ⟨rfl, rfl⟩

theorem State.jumpWhen_sameSurroundings {ma mt : Mode} {cond : Int → Bool}
    (ht : s.jumpWhen ma mt cond = .next t) : SameSurroundings s t := by
  rcases s.jumpWhen_cases ma mt cond t ht with
    ⟨a, v, -, -, -, -, rfl⟩ | ⟨a, v, -, -, -, rfl⟩ | ⟨c, rfl, -⟩
  · exact ⟨rfl, rfl⟩
  · exact ⟨rfl, rfl⟩
  · exact ⟨rfl, rfl⟩

theorem execInput_sameSurroundings {md : Mode} (ht : execInput md s = .next t) : SameSurroundings s t := by
  rcases execInput_cases s md t ht with ⟨-, rfl⟩ | ⟨v, q, d, -, -, rfl⟩ | ⟨v, q, c, -, -, rfl⟩
  · exact ⟨rfl, rfl⟩
  · exact ⟨rfl, rfl⟩
  · exact ⟨rfl, rfl⟩

theorem execOutput_sameSurroundings {ma : Mode} (ht : execOutput ma s = .next t) :
    SameSurroundings s t := by
  rcases execOutput_cases s ma t ht with ⟨a, -, rfl⟩ | ⟨c, -, rfl⟩
  · exact ⟨rfl, rfl⟩
  · exact ⟨rfl, rfl⟩

theorem execAdjustBase_sameSurroundings {ma : Mode} (ht : execAdjustBase ma s = .next t) :
    SameSurroundings s t := by
  rcases execAdjustBase_cases s ma t ht with ⟨a, -, -, rfl⟩ | ⟨c, rfl, -⟩
  · exact ⟨rfl, rfl⟩
  · exact ⟨rfl, rfl⟩

theorem execHalt_sameSurroundings (ht : execHalt s = .next t) : SameSurroundings s t := by
  obtain rfl := execHalt_cases s t ht
  exact ⟨rfl, rfl⟩

theorem exec_sameSurroundings {i : Instr} (ht : exec i s = .next t) : SameSurroundings s t := by
  cases i with
  | add a b d => exact State.threeOperand_sameSurroundings ht
  | mul a b d => exact State.threeOperand_sameSurroundings ht
  | input d => exact execInput_sameSurroundings ht
  | output a => exact execOutput_sameSurroundings ht
  | jumpIfTrue a t => exact State.jumpWhen_sameSurroundings ht
  | jumpIfFalse a t => exact State.jumpWhen_sameSurroundings ht
  | lessThan a b d => exact State.threeOperand_sameSurroundings ht
  | equals a b d => exact State.threeOperand_sameSurroundings ht
  | adjustBase a => exact execAdjustBase_sameSurroundings ht
  | halt => exact execHalt_sameSurroundings ht

theorem State.loadImage_cfg {ws : List Int} (ht : s.loadImage ws = .next t) : t.cfg = s.cfg := by
  rcases s.loadImage_cases ws t ht with ⟨-, rfl⟩ | ⟨-, rfl⟩
  · rfl
  · rfl

theorem transact_cfg {x : Txn} (ht : transact x s = .next t) : t.cfg = s.cfg := by
  cases x with
  | reset => obtain rfl := hostReset_cases ht; rfl
  | load ws =>
    obtain ⟨-, -, hload⟩ := hostLoad_cases s ws t ht
    exact State.loadImage_cfg hload
  | loadText text =>
    rcases hostLoadText_cases s text t ht with ⟨-, rfl⟩ | ⟨ws, -, hload⟩
    · rfl
    · exact State.loadImage_cfg hload
  | poke addr v =>
    rcases hostPoke_cases s addr v t ht with ⟨-, ⟨a, -, rfl⟩ | ⟨c, -, rfl⟩⟩
    · rfl
    · rfl
  | peek addr =>
    rcases hostPeek_cases s addr t ht with ⟨a, -, rfl⟩ | ⟨c, -, rfl⟩
    · rfl
    · rfl
  | inPush v => obtain ⟨-, rfl⟩ := hostInPush_cases s v t ht; rfl
  | outPop =>
    rcases hostOutPop_cases s t ht with ⟨-, rfl⟩ | ⟨v, q, -, rfl⟩
    · rfl
    · rfl
  | run => obtain rfl := hostRun_cases ht; rfl

theorem perform_cfg {x : Txn} (ht : perform x s = .next t) : t.cfg = s.cfg :=
  transact_cfg ((perform_eq_next s x t).1 ht).2

/-- Settles O5: neither an instruction, a fatal condition nor a transaction writes the parameters. -/
theorem parametersNeverChange : Obligations.ParametersNeverChange := by
  intro s t ht
  exact step_keeps (P := fun u => u.cfg = s.cfg)
    (hrequests := fun _ _ h => h)
    (hdeliver := fun u h => u.deliver_cfg.trans h)
    (hraise := fun _ _ h => h)
    (hexec := fun _ _ _ h hu => (exec_sameSurroundings hu).1.trans h)
    (hperform := fun _ _ _ h hu => (perform_cfg hu).trans h)
    rfl ht

/-! ## The invariant: one rule per update of State -/

theorem State.Inv.wellFormed (h : s.Inv) : s.cfg.WellFormed := h.1

theorem State.Inv.setStatus (h : s.Inv) (st : ExecState) : (s.setStatus st).Inv := h

theorem State.Inv.raise (h : s.Inv) (c : FatalCondition) : (s.raise c).Inv := h

theorem State.Inv.yield (h : s.Inv) (r : Reason) : (s.yield r).Inv := h

theorem State.Inv.resume (h : s.Inv) : s.resume.Inv := h

theorem State.Inv.answer (h : s.Inv) (r : Reply) : (s.answer r).Inv := h

theorem State.Inv.setRequests (h : s.Inv) (rs : List Request) : (s.setRequests rs).Inv := h

theorem State.Inv.deliver (h : s.Inv) : s.deliver.Inv := by
  simpa only [State.Inv, State.deliver_cfg, State.deliver_mem, State.deliver_pc, State.deliver_fp,
    State.deliver_inq, State.deliver_outq] using h

theorem State.Inv.store {a : Nat} {v : Int} (h : s.Inv) (ha : a < s.cfg.memCap) (hv : s.cfg.fits v) :
    (s.store a v).Inv := by
  obtain ⟨hcfg, hwf, hrange, hrest⟩ := h
  exact ⟨hcfg, Memory.write_wf _ _ _ hwf, Memory.write_inRange _ _ _ _ hrange ha hv, hrest⟩

/-- An instruction within memory is followed by a pc of W bits, though maybe past the end of memory. -/
theorem State.Inv.advance {n : Nat} (h : s.Inv) (hpc : s.pc < s.cfg.memCap) (hn : n ≤ 4) :
    (s.advance n).Inv := by
  obtain ⟨hcfg, hwf, hrange, -, hrest⟩ := h
  have hcap := hcfg.memCap_add_four_le
  exact ⟨hcfg, hwf, hrange, (by omega : s.pc + n < 2 ^ s.cfg.wordBits), hrest⟩

theorem State.Inv.jump {v : Int} (h : s.Inv) (hv : s.cfg.fits v) : (s.jump v.toNat).Inv := by
  obtain ⟨hcfg, hwf, hrange, -, hrest⟩ := h
  exact ⟨hcfg, hwf, hrange, Config.toNat_lt_two_pow_of_fits hv, hrest⟩

theorem State.Inv.setFp {v : Int} (h : s.Inv) (hv : s.cfg.fits v) : (s.setFp v).Inv := by
  obtain ⟨hcfg, hwf, hrange, hpc, -, hqueues⟩ := h
  exact ⟨hcfg, hwf, hrange, hpc, hv, hqueues⟩

theorem State.Inv.setInq {q : List Int} (h : s.Inv) (hq : ∀ v ∈ q, s.cfg.fits v) : (s.setInq q).Inv := by
  obtain ⟨hcfg, hwf, hrange, hpc, hfp, -, houtq⟩ := h
  exact ⟨hcfg, hwf, hrange, hpc, hfp, hq, houtq⟩

theorem State.Inv.setOutq {q : List Int} (h : s.Inv) (hq : ∀ v ∈ q, s.cfg.fits v) : (s.setOutq q).Inv := by
  obtain ⟨hcfg, hwf, hrange, hpc, hfp, hinq, -⟩ := h
  exact ⟨hcfg, hwf, hrange, hpc, hfp, hinq, hq⟩

theorem State.Inv.inq_fits (h : s.Inv) : ∀ v ∈ s.inq, s.cfg.fits v := by
  obtain ⟨-, -, -, -, -, hinq, -⟩ := h
  exact hinq

theorem State.Inv.outq_fits (h : s.Inv) : ∀ v ∈ s.outq, s.cfg.fits v := by
  obtain ⟨-, -, -, -, -, -, houtq⟩ := h
  exact houtq

theorem State.Inv.pushIn {v : Int} (h : s.Inv) (hv : s.cfg.fits v) : (s.pushIn v).Inv :=
  h.setInq (List.forall_mem_append.2 ⟨h.inq_fits, List.forall_mem_singleton.2 hv⟩)

theorem State.Inv.pushOut {v : Int} (h : s.Inv) (hv : s.cfg.fits v) : (s.pushOut v).Inv :=
  h.setOutq (List.forall_mem_append.2 ⟨h.outq_fits, List.forall_mem_singleton.2 hv⟩)

theorem State.Inv.toReset (h : s.Inv) : s.toReset.Inv :=
  ⟨h.wellFormed, Memory.reset_wf, List.forall_mem_nil _, Nat.two_pow_pos _, fits_zero s.cfg,
    List.forall_mem_nil _, List.forall_mem_nil _⟩

/-! ## The invariant: operands -/

theorem State.Inv.val_fits {i : Nat} {m : Mode} {v : Int} (h : s.Inv) (hv : s.val i m = .ok v) :
    s.cfg.fits v := by
  obtain ⟨-, -, hrange, -⟩ := h
  obtain ⟨a, -, rfl⟩ := (s.val_eq_ok i m v).1 hv
  exact Memory.read_fits _ _ hrange (fits_zero _) a

/-- The operand slot lies above pc, so an operand that resolves puts pc within memory. -/
theorem State.pc_lt_of_ea (s : State) {i : Nat} {m : Mode} {k : AccessKind} {d : Nat} (h : s.ea i m k = .ok d) :
    s.pc < s.cfg.memCap := by
  obtain ⟨hslot, -⟩ := (s.ea_eq_ok i m k d).1 h
  unfold State.slot at hslot
  omega

theorem State.pc_lt_of_val (s : State) {i : Nat} {m : Mode} {v : Int} (h : s.val i m = .ok v) :
    s.pc < s.cfg.memCap := by
  obtain ⟨a, ha, -⟩ := (s.val_eq_ok i m v).1 h
  exact s.pc_lt_of_ea ha

theorem State.pc_lt_of_dst (s : State) {i : Nat} {m : Mode} {d : Nat} (h : s.dst i m = .ok d) :
    s.pc < s.cfg.memCap := s.pc_lt_of_ea h

/-! ## The invariant: instructions -/

theorem fits_of_fitting {cfg : Config} {op : Nat} {r v : Int} (h : fitting cfg op r = .ok v) :
    cfg.fits v := by
  obtain ⟨hr, rfl⟩ := (fitting_eq_ok cfg op r v).1 h
  exact hr

theorem fits_of_ok_wordOfBool {cfg : Config} {b : Bool} {r : Int} (hcfg : cfg.WellFormed)
    (h : (.ok (wordOfBool b) : Except FatalCondition Int) = .ok r) : cfg.fits r :=
  Except.ok.inj h ▸ wordOfBool_fits cfg hcfg b

theorem State.Inv.of_threeOperand {ma mb md : Mode} {op : Int → Int → Except FatalCondition Int}
    (h : s.Inv) (hop : ∀ a b r, op a b = .ok r → s.cfg.fits r)
    (ht : s.threeOperand ma mb md op = .next t) : t.Inv := by
  rcases s.threeOperand_cases ma mb md op t ht with ⟨a, b, d, r, ha, -, hd, hr, rfl⟩ | ⟨c, rfl, -⟩
  · have hstore := h.store (s.dst_lt _ _ _ hd) (hop a b r hr)
    exact hstore.advance (s.pc_lt_of_val ha) le_rfl
  · exact h.raise c

theorem State.Inv.of_jumpWhen {ma mt : Mode} {cond : Int → Bool} (h : s.Inv)
    (ht : s.jumpWhen ma mt cond = .next t) : t.Inv := by
  rcases s.jumpWhen_cases ma mt cond t ht with
    ⟨a, v, -, hv, -, -, rfl⟩ | ⟨a, v, ha, -, -, rfl⟩ | ⟨c, rfl, -⟩
  · exact h.jump (h.val_fits hv)
  · exact h.advance (s.pc_lt_of_val ha) (by decide)
  · exact h.raise c

theorem State.Inv.of_execInput {md : Mode} (h : s.Inv) (ht : execInput md s = .next t) : t.Inv := by
  rcases execInput_cases s md t ht with ⟨-, rfl⟩ | ⟨v, q, d, hq, hd, rfl⟩ | ⟨v, q, c, -, -, rfl⟩
  · exact h.yield _
  · obtain ⟨hv, hrest⟩ := List.forall_mem_cons.1 (hq ▸ h.inq_fits)
    have hstore := (h.setInq hrest).store (s.dst_lt _ _ _ hd) hv
    exact hstore.advance (s.pc_lt_of_dst hd) (by decide)
  · exact h.raise c

theorem State.Inv.of_execOutput {ma : Mode} (h : s.Inv) (ht : execOutput ma s = .next t) : t.Inv := by
  rcases execOutput_cases s ma t ht with ⟨a, ha, rfl⟩ | ⟨c, -, rfl⟩
  · have hpush := h.pushOut (h.val_fits ha)
    exact (hpush.advance (s.pc_lt_of_val ha) (by decide)).yield _
  · exact h.raise c

theorem State.Inv.of_execAdjustBase {ma : Mode} (h : s.Inv) (ht : execAdjustBase ma s = .next t) :
    t.Inv := by
  rcases execAdjustBase_cases s ma t ht with ⟨a, ha, hfits, rfl⟩ | ⟨c, rfl, -⟩
  · exact (h.setFp hfits).advance (s.pc_lt_of_val ha) (by decide)
  · exact h.raise c

theorem State.Inv.of_execHalt (h : s.Inv) (ht : execHalt s = .next t) : t.Inv := by
  obtain rfl := execHalt_cases s t ht
  exact h.setStatus _

/-- Every instruction keeps the invariant: each result is a word because it is checked to be one (`add`, `mul`,
`adjust-base`), is 0 or 1 (`less-than`, `equals`), or was read from memory or a queue. -/
theorem State.Inv.of_exec {i : Instr} (h : s.Inv) (ht : exec i s = .next t) : t.Inv := by
  cases i with
  | add a b d => exact h.of_threeOperand (fun _ _ _ hr => fits_of_fitting hr) ht
  | mul a b d => exact h.of_threeOperand (fun _ _ _ hr => fits_of_fitting hr) ht
  | input d => exact h.of_execInput ht
  | output a => exact h.of_execOutput ht
  | jumpIfTrue a t => exact h.of_jumpWhen ht
  | jumpIfFalse a t => exact h.of_jumpWhen ht
  | lessThan a b d => exact h.of_threeOperand (fun _ _ _ hr => fits_of_ok_wordOfBool h.wellFormed hr) ht
  | equals a b d => exact h.of_threeOperand (fun _ _ _ hr => fits_of_ok_wordOfBool h.wellFormed hr) ht
  | adjustBase a => exact h.of_execAdjustBase ht
  | halt => exact h.of_execHalt ht

/-! ## The invariant: transactions of the host -/

theorem State.Inv.of_loadImage {ws : List Int} (h : s.Inv) (hws : ∀ v ∈ ws, s.cfg.fits v)
    (ht : s.loadImage ws = .next t) : t.Inv := by
  rcases s.loadImage_cases ws t ht with ⟨hlen, rfl⟩ | ⟨-, rfl⟩
  · obtain ⟨hcfg, hwf, hrange, hrest⟩ := h
    have hmem := Memory.writeAll_inRange _ ws _ 0 hrange (by omega) hws
    exact ⟨hcfg, Memory.writeAll_wf ws _ 0 hwf, hmem, hrest⟩
  · exact h.raise _

theorem checkAddr_lt {cfg : Config} {a : Int} {k : AccessKind} {d : Nat} (h : checkAddr cfg a k = .ok d) :
    d < cfg.memCap := ((checkAddr_eq_ok cfg a k d).1 h).2

theorem State.Inv.of_transact {x : Txn} (h : s.Inv) (ht : transact x s = .next t) : t.Inv := by
  cases x with
  | reset =>
    obtain rfl := hostReset_cases ht
    exact h.toReset
  | load ws =>
    obtain ⟨-, hws, hload⟩ := hostLoad_cases s ws t ht
    exact h.of_loadImage hws hload
  | loadText text =>
    rcases hostLoadText_cases s text t ht with ⟨-, rfl⟩ | ⟨ws, hparse, hload⟩
    · exact h.raise _
    · exact h.of_loadImage (parseText_words _ _ _ hparse).2 hload
  | poke addr v =>
    rcases hostPoke_cases s addr v t ht with ⟨hv, ⟨a, ha, rfl⟩ | ⟨c, -, rfl⟩⟩
    · exact h.store (checkAddr_lt ha) hv
    · exact h.raise c
  | peek addr =>
    rcases hostPeek_cases s addr t ht with ⟨a, -, rfl⟩ | ⟨c, -, rfl⟩
    · exact h.answer _
    · exact h.raise c
  | inPush v =>
    obtain ⟨hv, rfl⟩ := hostInPush_cases s v t ht
    exact h.pushIn hv
  | outPop =>
    rcases hostOutPop_cases s t ht with ⟨-, rfl⟩ | ⟨v, q, hq, rfl⟩
    · exact h.answer _
    · obtain ⟨-, hrest⟩ := List.forall_mem_cons.1 (hq ▸ h.outq_fits)
      exact (h.setOutq hrest).answer _
  | run =>
    obtain rfl := hostRun_cases ht
    exact h.resume

theorem State.Inv.of_perform {x : Txn} (h : s.Inv) (ht : perform x s = .next t) : t.Inv :=
  h.of_transact ((perform_eq_next s x t).1 ht).2

/-- Settles O3: every instruction and every transaction keeps the invariant, and neither the host's lists nor
the STATE of a fatal condition matters to it. -/
theorem stepKeepsTheInvariant : Obligations.StepKeepsTheInvariant := by
  intro s t hinv ht
  exact step_keeps
    (hrequests := fun _ rs h => h.setRequests rs)
    (hdeliver := fun _ h => h.deliver)
    (hraise := fun _ c h => h.raise c)
    (hexec := fun _ _ _ h hu => h.of_exec hu)
    (hperform := fun _ _ _ h hu => h.of_perform hu)
    hinv ht

end Sys2Proof.Machine

/-! # Proofs: reset, the registers and queues of one Computer, several Computers (`10_state.md`) -/

namespace Sys2Proof

theorem Config.recommended_wellFormed : Config.recommended.WellFormed := by decide

end Sys2Proof

namespace Sys2Proof.Machine

open Sys2Proof

variable {s t : State}

/-! ## Several Computers (R35) -/

theorem core_run_succ_of_step (n : Nat) (h : step s = .next t) :
    Host.Core.run Sys2Proof.core (n + 1) s = Host.Core.run Sys2Proof.core n t := by
  have hcore : Sys2Proof.core.step s = .next t := h
  simp only [Host.Core.run, hcore]

theorem System.turn_length {k : Nat} {sys sys' : System} (h : System.turn k sys = some sys') :
    sys'.length = sys.length := by
  obtain ⟨s, t, -, -, rfl⟩ := (System.turn_eq_some k sys sys').1 h
  exact List.length_set

/-- The Computer whose turn it is takes one step. -/
theorem System.turn_getElem?_self {k : Nat} {sys sys' : System} (h : System.turn k sys = some sys')
    (hs : sys[k]? = some s) : ∃ t, step s = .next t ∧ sys'[k]? = some t := by
  obtain ⟨s', t, hs', hstep, rfl⟩ := (System.turn_eq_some k sys sys').1 h
  obtain rfl : s' = s := Option.some.inj (hs'.symm.trans hs)
  obtain ⟨hk, -⟩ := List.getElem?_eq_some_iff.1 hs
  exact ⟨t, hstep, List.getElem?_set_self hk⟩

/-- A Computer whose turn it is not stays as it is. -/
theorem System.turn_getElem?_ne {j k : Nat} {sys sys' : System} (h : System.turn k sys = some sys')
    (hne : k ≠ j) : sys'[j]? = sys[j]? := by
  obtain ⟨s, t, -, -, rfl⟩ := (System.turn_eq_some k sys sys').1 h
  exact List.getElem?_set_ne hne

/-- Settles O60, by induction on the schedule: a turn of a Computer is its next step alone, and a turn of
another leaves it as it was. -/
theorem computersAreIndependent : Obligations.ComputersAreIndependent := by
  intro ks
  induction ks with
  | nil =>
    intro sys sys' hrun
    obtain rfl : sys = sys' := Option.some.inj hrun
    exact ⟨rfl, fun j s hs => ⟨s, hs, rfl⟩⟩
  | cons k ks ih =>
    intro sys sys' hrun
    obtain ⟨sys₁, hturn, hrest⟩ := (System.run_cons k ks sys sys').1 hrun
    obtain ⟨hlength, halone⟩ := ih sys₁ sys' hrest
    refine ⟨hlength.trans (System.turn_length hturn), fun j s hs => ?_⟩
    by_cases hjk : k = j
    · subst hjk
      obtain ⟨u, hstep, hu⟩ := System.turn_getElem?_self hturn hs
      rw [List.count_cons_self, core_run_succ_of_step _ hstep]
      exact halone k u hu
    · rw [List.count_cons_of_ne hjk]
      exact halone j s ((System.turn_getElem?_ne hturn hjk).trans hs)

/-! ## Canonical memories (R27, log 3) -/

/-- The cells of a canonical memory are the non-zero words it reads as. -/
theorem Memory.mem_iff_read {m : Memory} (hm : m.wf) (c : Nat × Int) :
    c ∈ m ↔ m.read c.1 = c.2 ∧ c.2 ≠ 0 := by
  obtain ⟨hsorted, hnonzero⟩ := hm
  constructor
  · exact fun hc => ⟨m.read_of_mem hsorted c hc, hnonzero c hc⟩
  · rintro ⟨hread, hc⟩
    rcases m.read_mem c.1 with hzero | hmem
    · exact absurd (hread.symm.trans hzero) hc
    · rwa [hread] at hmem

/-- Settles O13: both are sorted lists of the same cells. -/
theorem canonicalMemoriesReadingAlikeAreEqual : Obligations.CanonicalMemoriesReadingAlikeAreEqual := by
  intro m m' hm hm' hread
  have hasymm : Std.Asymm (fun c d : Nat × Int => c.1 < d.1) := ⟨fun _ _ => Nat.lt_asymm⟩
  exact hm.1.eq_of_mem_iff hm'.1 fun c => by
    rw [Memory.mem_iff_read hm, Memory.mem_iff_read hm', hread]

/-! ## Reset (R24, R180) -/

theorem legal_reset (st : ExecState) : legal .reset st = true := by cases st <;> rfl

theorem perform_reset (s : State) : perform .reset s = .next s.toReset :=
  (perform_eq_next s .reset _).2 ⟨legal_reset s.status, rfl⟩

/-- Settles O1: RESET is legal in every STATE, and its effect is `State.toReset`. -/
theorem resetGivesTheResetValues : Obligations.ResetGivesTheResetValues :=
  ⟨⟨fun _ => rfl, rfl, rfl, rfl, rfl, rfl⟩,
    fun s => ⟨s.toReset, perform_reset s, fun _ => rfl, rfl, rfl, rfl, rfl, rfl, rfl, rfl⟩⟩

theorem State.resetOf_inv {cfg : Config} (d : Driver) (h : cfg.WellFormed) : (State.resetOf cfg d).Inv :=
  ⟨h, Memory.reset_wf, List.forall_mem_nil _, Nat.two_pow_pos _, fits_zero cfg, List.forall_mem_nil _,
    List.forall_mem_nil _⟩

theorem State.resetOf_bootInv (cfg : Config) (d : Driver) : (State.resetOf cfg d).BootInv :=
  ⟨fun _ => rfl, fun _ => ⟨rfl, rfl, rfl⟩⟩

/-- Settles O2: everything is zero or empty, and 0 is a word of every width. -/
theorem resetMeetsTheInvariants : Obligations.ResetMeetsTheInvariants :=
  ⟨Config.recommended_wellFormed, State.resetOf_inv _ Config.recommended_wellFormed,
    State.resetOf_bootInv _ _, fun cfg d h => ⟨State.resetOf_inv d h, State.resetOf_bootInv cfg d⟩⟩

/-! ## What an instruction can do to the state -/

/-- The next states an instruction can reach, by what it does to fp, the queues and STATE: the addresses and
values it computes are left to the meanings. -/
inductive ExecEffect (s : State) : Instr → State → Prop
  /-- a result is written (`add`, `mul`, `less-than`, `equals`). -/
  | stored (i : Instr) (d : Nat) (r : Int) : ExecEffect s i ((s.store d r).advance 4)
  /-- a conditional jump, taken or not. -/
  | jumped (i : Instr) (a : Nat) : ExecEffect s i (s.jump a)
  /-- `input` on an empty INQ. -/
  | suspended (md : Mode) : ExecEffect s (.input md) (s.yield .needsInput)
  /-- `input` of the oldest element of INQ. -/
  | taken (md : Mode) (d : Nat) (v : Int) (q : List Int) (hq : s.inq = v :: q) :
      ExecEffect s (.input md) (((s.setInq q).store d v).advance 2)
  /-- `output`. -/
  | pushed (ma : Mode) (v : Int) (hv : s.val 0 ma = .ok v) :
      ExecEffect s (.output ma) (((s.pushOut v).advance 2).yield .producedOutput)
  /-- `adjust-base`. -/
  | adjusted (ma : Mode) (v : Int) : ExecEffect s (.adjustBase ma) ((s.setFp v).advance 2)
  /-- `halt`. -/
  | halted : ExecEffect s .halt (s.setStatus .halted)
  /-- a fatal condition of any instruction. -/
  | raised (i : Instr) (c : FatalCondition) : ExecEffect s i (s.raise c)

theorem State.threeOperand_effect {ma mb md : Mode} {op : Int → Int → Except FatalCondition Int}
    (i : Instr) (ht : s.threeOperand ma mb md op = .next t) : ExecEffect s i t := by
  rcases s.threeOperand_cases ma mb md op t ht with ⟨a, b, d, r, -, -, -, -, rfl⟩ | ⟨c, rfl, -⟩
  · exact .stored i d r
  · exact .raised i c

theorem State.jumpWhen_effect {ma mt : Mode} {cond : Int → Bool} (i : Instr)
    (ht : s.jumpWhen ma mt cond = .next t) : ExecEffect s i t := by
  rcases s.jumpWhen_cases ma mt cond t ht with
    ⟨a, v, -, -, -, -, rfl⟩ | ⟨a, v, -, -, -, rfl⟩ | ⟨c, rfl, -⟩
  · exact .jumped i v.toNat
  · exact .jumped i (s.pc + 3)
  · exact .raised i c

theorem execInput_effect {md : Mode} (ht : execInput md s = .next t) : ExecEffect s (.input md) t := by
  rcases execInput_cases s md t ht with ⟨-, rfl⟩ | ⟨v, q, d, hq, -, rfl⟩ | ⟨v, q, c, -, -, rfl⟩
  · exact .suspended md
  · exact .taken md d v q hq
  · exact .raised _ c

theorem execOutput_effect {ma : Mode} (ht : execOutput ma s = .next t) : ExecEffect s (.output ma) t := by
  rcases execOutput_cases s ma t ht with ⟨v, hv, rfl⟩ | ⟨c, -, rfl⟩
  · exact .pushed ma v hv
  · exact .raised _ c

theorem execAdjustBase_effect {ma : Mode} (ht : execAdjustBase ma s = .next t) :
    ExecEffect s (.adjustBase ma) t := by
  rcases execAdjustBase_cases s ma t ht with ⟨a, -, -, rfl⟩ | ⟨c, rfl, -⟩
  · exact .adjusted ma (s.fp + a)
  · exact .raised _ c

theorem execHalt_effect (ht : execHalt s = .next t) : ExecEffect s .halt t := by
  obtain rfl := execHalt_cases s t ht
  exact .halted

theorem exec_effect {i : Instr} (ht : exec i s = .next t) : ExecEffect s i t := by
  cases i with
  | add a b d => exact State.threeOperand_effect _ ht
  | mul a b d => exact State.threeOperand_effect _ ht
  | input d => exact execInput_effect ht
  | output a => exact execOutput_effect ht
  | jumpIfTrue a t => exact State.jumpWhen_effect _ ht
  | jumpIfFalse a t => exact State.jumpWhen_effect _ ht
  | lessThan a b d => exact State.threeOperand_effect _ ht
  | equals a b d => exact State.threeOperand_effect _ ht
  | adjustBase a => exact execAdjustBase_effect ht
  | halt => exact execHalt_effect ht

/-! ## What a transaction can do to the state -/

/-- The next states a transaction can reach, by the update of State that it makes; legality (R195) is left to
`perform_eq_next`. -/
inductive TxnEffect (s : State) : Txn → State → Prop
  /-- RESET. -/
  | reset : TxnEffect s .reset s.toReset
  /-- LOAD of words or of a text. -/
  | loaded (x : Txn) (ws : List Int) (hx : x.kind = .load) :
      TxnEffect s x (({ s with mem := s.mem.writeAll 0 ws } : State).setStatus .ready)
  /-- POKE. -/
  | poked (addr v : Int) (a : Nat) : TxnEffect s (.poke addr v) (s.store a v)
  /-- PEEK, and OUT_POP of an empty OUTQ. -/
  | answered (x : Txn) (r : Reply) : TxnEffect s x (s.answer r)
  /-- IN_PUSH. -/
  | inPushed (v : Int) : TxnEffect s (.inPush v) (s.pushIn v)
  /-- OUT_POP of the oldest element of OUTQ. -/
  | outPopped (v : Int) (q : List Int) (hq : s.outq = v :: q) :
      TxnEffect s .outPop ((s.setOutq q).answer (.outPop (some v)))
  /-- RUN. -/
  | resumed : TxnEffect s .run s.resume
  /-- a fatal condition of the host's port. -/
  | raised (x : Txn) (c : FatalCondition) : TxnEffect s x (s.raise c)

theorem State.loadImage_effect {x : Txn} {ws : List Int} (hx : x.kind = .load)
    (ht : s.loadImage ws = .next t) : TxnEffect s x t := by
  rcases s.loadImage_cases ws t ht with ⟨-, rfl⟩ | ⟨-, rfl⟩
  · exact .loaded x ws hx
  · exact .raised x _

theorem transact_effect {x : Txn} (ht : transact x s = .next t) : TxnEffect s x t := by
  cases x with
  | reset => obtain rfl := hostReset_cases ht; exact .reset
  | load ws =>
    obtain ⟨-, -, hload⟩ := hostLoad_cases s ws t ht
    exact State.loadImage_effect rfl hload
  | loadText text =>
    rcases hostLoadText_cases s text t ht with ⟨-, rfl⟩ | ⟨ws, -, hload⟩
    · exact .raised _ _
    · exact State.loadImage_effect rfl hload
  | poke addr v =>
    rcases hostPoke_cases s addr v t ht with ⟨-, ⟨a, -, rfl⟩ | ⟨c, -, rfl⟩⟩
    · exact .poked addr v a
    · exact .raised _ c
  | peek addr =>
    rcases hostPeek_cases s addr t ht with ⟨a, -, rfl⟩ | ⟨c, -, rfl⟩
    · exact .answered _ _
    · exact .raised _ c
  | inPush v => obtain ⟨-, rfl⟩ := hostInPush_cases s v t ht; exact .inPushed v
  | outPop =>
    rcases hostOutPop_cases s t ht with ⟨-, rfl⟩ | ⟨v, q, hq, rfl⟩
    · exact .answered _ _
    · exact .outPopped v q hq
  | run => obtain rfl := hostRun_cases ht; exact .resumed

/-! ## The queues (R28, R142, R143) -/

theorem exec_inq {i : Instr} (ht : exec i s = .next t) :
    t.inq = s.inq ∨ ∃ md v, i = .input md ∧ s.inq = v :: t.inq := by
  cases exec_effect ht with
  | taken md d v q hq => exact .inr ⟨md, v, rfl, hq⟩
  | _ => exact .inl rfl

theorem exec_outq {i : Instr} (ht : exec i s = .next t) :
    t.outq = s.outq ∨ ∃ ma v, i = .output ma ∧ s.val 0 ma = .ok v ∧ t.outq = s.outq ++ [v] := by
  cases exec_effect ht with
  | pushed ma v hv => exact .inr ⟨ma, v, rfl, hv, rfl⟩
  | _ => exact .inl rfl

/-- Settles O42: of an instruction's effects, only the completed `input` and the completed `output` write a
queue. -/
theorem queuesChangeOnlyByInputAndOutput : Obligations.QueuesChangeOnlyByInputAndOutput :=
  fun _ _ _ ht => ⟨exec_inq ht, exec_outq ht, exec_sameSurroundings ht⟩

/-! ## fp (R25, R180) -/

theorem exec_fp {i : Instr} (ht : exec i s = .next t) : t.fp = s.fp ∨ ∃ m, i = .adjustBase m := by
  cases exec_effect ht with
  | adjusted ma v => exact .inr ⟨ma, rfl⟩
  | _ => exact .inl rfl

theorem transact_fp {x : Txn} (ht : transact x s = .next t) : t.fp = s.fp ∨ x = .reset := by
  cases transact_effect ht with
  | reset => exact .inr rfl
  | _ => exact .inl rfl

/-- Settles O40: a fatal condition keeps fp, and so does every instruction but `adjust-base` and every
transaction but RESET. -/
theorem fpChangesOnlyByAdjustBase : Obligations.FpChangesOnlyByAdjustBase := by
  refine ⟨fun s t ht hfp => ?_, fun x s t ht hfp => ?_⟩
  · rcases coreStep_cases s t ht with ⟨i, hi, hexec⟩ | ⟨c, -, rfl⟩
    · obtain ⟨m, rfl⟩ := (exec_fp hexec).resolve_left hfp
      exact ⟨m, hi⟩
    · exact absurd rfl hfp
  · exact (transact_fp ((perform_eq_next s x t).1 ht).2).resolve_left hfp

/-! ## What Booting and Ready say of the rest of the state (R30) -/

theorem State.bootInv_of_started (h : s.status ≠ .booting ∧ s.status ≠ .ready) : s.BootInv := by
  obtain ⟨hbooting, hready⟩ := h
  exact ⟨fun hs => absurd hs hbooting, fun hs => absurd hs (not_or_intro hbooting hready)⟩

theorem State.raise_bootInv (s : State) (c : FatalCondition) : (s.raise c).BootInv :=
  State.bootInv_of_started ⟨nofun, nofun⟩

theorem State.BootInv.deliver (h : s.BootInv) : s.deliver.BootInv := by
  simpa only [State.BootInv, State.deliver_mem, State.deliver_pc, State.deliver_fp, State.deliver_outq,
    State.deliver_status] using h

/-- A Running core goes on Running, yields, halts or faults. -/
theorem exec_started {i : Instr} (hs : s.status = .running) (ht : exec i s = .next t) :
    t.status ≠ .booting ∧ t.status ≠ .ready := by
  have hrunning : s.status ≠ .booting ∧ s.status ≠ .ready := by simp [hs]
  cases exec_effect ht with
  | stored i d r => exact hrunning
  | jumped i a => exact hrunning
  | taken md d v q hq => exact hrunning
  | adjusted ma v => exact hrunning
  | _ => exact ⟨nofun, nofun⟩

theorem coreStep_bootInv (hs : s.status = .running) (ht : coreStep s = .next t) : t.BootInv := by
  rcases coreStep_cases s t ht with ⟨i, -, hi⟩ | ⟨c, -, rfl⟩
  · exact State.bootInv_of_started (exec_started hs hi)
  · exact s.raise_bootInv c

theorem legal_load {st : ExecState} (h : legal .load st = true) : st = .booting := by
  cases st with
  | booting => rfl
  | _ => cases h

theorem legal_pokePeek {st : ExecState} (h : legal .pokePeek st = true) : st ≠ .booting := by
  rintro rfl
  cases h

/-- LOAD comes in Booting, where pc and fp are 0 and OUTQ is empty; POKE comes after it, when memory need not be
zero; a value taken from OUTQ shows that an instruction has been executed. -/
theorem State.BootInv.of_perform {x : Txn} (h : s.BootInv) (ht : perform x s = .next t) : t.BootInv := by
  obtain ⟨hlegal, htransact⟩ := (perform_eq_next s x t).1 ht
  have ⟨hmem, hstart⟩ := h
  cases transact_effect htransact with
  | reset => exact State.resetOf_bootInv _ _
  | loaded x ws hx =>
    have hbooting := legal_load (hx ▸ hlegal)
    exact ⟨nofun, fun _ => hstart (.inl hbooting)⟩
  | poked addr v a => exact ⟨fun hs => absurd hs (legal_pokePeek hlegal), hstart⟩
  | answered x r => exact h
  | inPushed v => exact h
  | outPopped v q hq =>
    refine ⟨hmem, fun hs => ?_⟩
    obtain ⟨-, -, hempty⟩ := hstart hs
    exact absurd (hq.symm.trans hempty) (List.cons_ne_nil v q)
  | resumed => exact State.bootInv_of_started ⟨nofun, nofun⟩
  | raised x c => exact s.raise_bootInv c

/-- Settles O4: a step of the core never ends in Booting or Ready, and the legality of LOAD and POKE keeps the
host from breaking what those two say. -/
theorem stepKeepsTheBootInvariant : Obligations.StepKeepsTheBootInvariant := by
  intro s t h ht
  rcases step_cases s t ht with ⟨s', u, hs', hrunning, hu, rfl⟩ | ⟨r, rs, -, -, hp⟩
  · have hrunning' : s'.status = .running := by
      rcases hs' with ⟨rfl, -⟩ | ⟨r, rs, -, -, rfl⟩
      · exact hrunning
      · exact hrunning
    exact (coreStep_bootInv hrunning' hu).deliver
  · have h' : (s.setRequests rs).BootInv := h
    exact h'.of_perform hp

/-! ## OUTQ is invisible to the program (R28, R143) -/

/-- What `m` does never depends on OUTQ: with any other OUTQ it does the same and appends the same values. -/
def OutqInvisible (m : State → Result) : Prop :=
  ∀ s t, m s = .next t → ∃ new, t.outq = s.outq ++ new ∧
    ∀ q, m (s.setOutq q) = .next (t.setOutq (q ++ new))

/-- It is enough for what leaves OUTQ alone that it carries any OUTQ over: its own is one of them. -/
theorem outqInvisible_of_setOutq {m : State → Result}
    (h : ∀ s t, m s = .next t → ∀ q, m (s.setOutq q) = .next (t.setOutq q)) : OutqInvisible m := by
  intro s t ht
  have hself : t = t.setOutq s.outq := Host.Outcome.next.inj (ht.symm.trans (h s t ht s.outq))
  refine ⟨[], ?_, fun q => ?_⟩
  · rw [List.append_nil, hself]
    rfl
  · rw [List.append_nil]
    exact h s t ht q

/-- A fatal condition, and what a step computed, are committed the same with any OUTQ. -/
theorem State.commit_setOutq {r : Except FatalCondition State} (ht : s.commit r = .next t) (q : List Int) :
    (s.setOutq q).commit ((·.setOutq q) <$> r) = .next (t.setOutq q) := by
  rcases s.commit_cases r t ht with rfl | ⟨c, rfl, rfl⟩
  · rfl
  · rfl

theorem State.threeOperand_setOutq {ma mb md : Mode} {op : Int → Int → Except FatalCondition Int}
    (ht : s.threeOperand ma mb md op = .next t) (q : List Int) :
    (s.setOutq q).threeOperand ma mb md op = .next (t.setOutq q) := by
  have h := State.commit_setOutq ht q
  simp only [map_bind, map_pure] at h
  exact h

theorem State.jumpWhen_setOutq {ma mt : Mode} {cond : Int → Bool} (ht : s.jumpWhen ma mt cond = .next t)
    (q : List Int) : (s.setOutq q).jumpWhen ma mt cond = .next (t.setOutq q) := by
  have h := State.commit_setOutq ht q
  simp only [map_bind, map_pure, apply_ite] at h
  exact h

theorem execAdjustBase_setOutq {ma : Mode} (ht : execAdjustBase ma s = .next t) (q : List Int) :
    execAdjustBase ma (s.setOutq q) = .next (t.setOutq q) := by
  have h := State.commit_setOutq ht q
  simp only [map_bind, map_pure] at h
  exact h

theorem execInput_setOutq {md : Mode} (ht : execInput md s = .next t) (q : List Int) :
    execInput md (s.setOutq q) = .next (t.setOutq q) := by
  unfold execInput at ht ⊢
  rw [State.setOutq_inq]
  cases hq : s.inq with
  | nil =>
    simp only [hq] at ht ⊢
    obtain rfl := Host.Outcome.next.inj ht
    rfl
  | cons v vs =>
    simp only [hq] at ht ⊢
    have h := State.commit_setOutq ht q
    simp only [map_bind, map_pure] at h
    exact h

theorem execHalt_setOutq (ht : execHalt s = .next t) (q : List Int) :
    execHalt (s.setOutq q) = .next (t.setOutq q) := by
  obtain rfl := execHalt_cases s t ht
  rfl

/-- `output` appends its operand, which does not depend on OUTQ; its fatal condition appends nothing. -/
theorem execOutput_outqInvisible (ma : Mode) : OutqInvisible (execOutput ma) := by
  intro s t ht
  have hval : ∀ q, (s.setOutq q).val 0 ma = s.val 0 ma := fun _ => rfl
  rcases execOutput_cases s ma t ht with ⟨v, hv, rfl⟩ | ⟨c, hc, rfl⟩
  · refine ⟨[v], rfl, fun q => ?_⟩
    simp only [execOutput, hval, hv, ok_bind, pure_eq_ok, State.commit_ok]
    rfl
  · refine ⟨[], (List.append_nil _).symm, fun q => ?_⟩
    simp only [execOutput, hval, hc, error_bind, State.commit_error, List.append_nil]
    rfl

theorem exec_outqInvisible (i : Instr) : OutqInvisible (exec i) := by
  cases i with
  | output a => exact execOutput_outqInvisible a
  | add a b d => exact outqInvisible_of_setOutq fun _ _ => State.threeOperand_setOutq
  | mul a b d => exact outqInvisible_of_setOutq fun _ _ => State.threeOperand_setOutq
  | input d => exact outqInvisible_of_setOutq fun _ _ => execInput_setOutq
  | jumpIfTrue a t => exact outqInvisible_of_setOutq fun _ _ => State.jumpWhen_setOutq
  | jumpIfFalse a t => exact outqInvisible_of_setOutq fun _ _ => State.jumpWhen_setOutq
  | lessThan a b d => exact outqInvisible_of_setOutq fun _ _ => State.threeOperand_setOutq
  | equals a b d => exact outqInvisible_of_setOutq fun _ _ => State.threeOperand_setOutq
  | adjustBase a => exact outqInvisible_of_setOutq fun _ _ => execAdjustBase_setOutq
  | halt => exact outqInvisible_of_setOutq fun _ _ => execHalt_setOutq

theorem coreStep_of_fetchDecode {i : Instr} (h : s.fetchDecode = .ok i) : coreStep s = exec i s := by
  simp only [coreStep, h]

theorem coreStep_of_fetchDecode_error {c : FatalCondition} (h : s.fetchDecode = .error c) :
    coreStep s = .next (s.raise c) := by
  simp only [coreStep, h]

theorem coreStep_outqInvisible : OutqInvisible coreStep := by
  intro s t ht
  have hfetch : ∀ q, (s.setOutq q).fetchDecode = s.fetchDecode := fun _ => rfl
  rcases coreStep_cases s t ht with ⟨i, hi, hexec⟩ | ⟨c, hc, rfl⟩
  · obtain ⟨new, hnew, hany⟩ := exec_outqInvisible i s t hexec
    exact ⟨new, hnew, fun q => (coreStep_of_fetchDecode ((hfetch q).trans hi)).trans (hany q)⟩
  · refine ⟨[], (List.append_nil _).symm, fun q => ?_⟩
    rw [coreStep_of_fetchDecode_error ((hfetch q).trans hc), List.append_nil]
    rfl

/-- Settles O48: neither fetch, decode nor an operand reads OUTQ, and only `output` appends to it. -/
theorem outputQueueIsInvisibleToTheProgram : Obligations.OutputQueueIsInvisibleToTheProgram :=
  coreStep_outqInvisible

end Sys2Proof.Machine

/-! # Proofs: memory and operands (`20_memory.md`) -/

namespace Sys2Proof.Machine

open Sys2Proof

variable {s t : State}

/-! ## The effective address (R57, R59) -/

@[simp] theorem State.formAddress_position (s : State) (i : Nat) (r : Int) :
    s.formAddress i r .position = r := rfl

@[simp] theorem State.formAddress_immediate (s : State) (i : Nat) (r : Int) :
    s.formAddress i r .immediate = (s.slot i : Int) := rfl

@[simp] theorem State.formAddress_relative (s : State) (i : Nat) (r : Int) :
    s.formAddress i r .relative = r + s.fp := rfl

/-- Immediate mode needs no second check: the address is the slot that has passed the first. -/
theorem State.ea_immediate {i : Nat} (k : AccessKind) (hslot : s.slot i < s.cfg.memCap) :
    s.ea i .immediate k = .ok (s.slot i) :=
  (s.ea_eq_ok i .immediate k _).2 ⟨hslot, s.formAddress_immediate i _, hslot⟩

theorem State.ea_position {i a : Nat} (k : AccessKind) (hslot : s.slot i < s.cfg.memCap)
    (hraw : s.mem.read (s.slot i) = (a : Int)) (ha : a < s.cfg.memCap) : s.ea i .position k = .ok a :=
  (s.ea_eq_ok i .position k a).2 ⟨hslot, (s.formAddress_position i _).trans hraw, ha⟩

theorem State.ea_relative {i a : Nat} (k : AccessKind) (hslot : s.slot i < s.cfg.memCap)
    (hraw : s.mem.read (s.slot i) + s.fp = (a : Int)) (ha : a < s.cfg.memCap) :
    s.ea i .relative k = .ok a :=
  (s.ea_eq_ok i .relative k a).2 ⟨hslot, (s.formAddress_relative i _).trans hraw, ha⟩

/-- Settles O14: the slot is checked first, in every mode, and the address that the mode forms after it. -/
theorem effectiveAddressByMode : Obligations.EffectiveAddressByMode := by
  intro s i k
  refine ⟨fun hslot => ?_, fun hslot => ?_⟩
  · exact ⟨(s.raw_eq_error i _).2 ⟨hslot, rfl⟩, fun m => (s.ea_eq_error i m k _).2 (.inl ⟨hslot, rfl⟩)⟩
  · refine ⟨(s.raw_eq_ok i _).2 ⟨hslot, rfl⟩, State.ea_immediate k hslot, fun m a hma => ?_⟩
    have hform : s.formAddress i (s.mem.read (s.slot i)) m = a := by
      rcases hma with ⟨rfl, rfl⟩ | ⟨rfl, rfl⟩
      · exact s.formAddress_position i _
      · exact s.formAddress_relative i _
    subst hform
    refine ⟨fun hnonneg hlt => ?_, fun hout => ?_⟩
    · exact (s.ea_eq_ok i m k _).2 ⟨hslot, (Int.toNat_of_nonneg hnonneg).symm, by omega⟩
    · exact (s.ea_eq_error i m k _).2 (.inr ⟨hslot, hout, rfl⟩)

/-! ## Sources and destinations (R61, R62) -/

theorem State.val_of_ea {i a : Nat} {m : Mode} (h : s.ea i m .dataRead = .ok a) :
    s.val i m = .ok (s.mem.read a) :=
  (s.val_eq_ok i m _).2 ⟨a, h, rfl⟩

/-- Settles O15: the value is the word at the effective address, whatever the mode. -/
theorem sourceValueByMode : Obligations.SourceValueByMode := by
  intro s i
  refine ⟨fun hslot => ⟨?immediate, fun a hraw ha => ?position, fun a hraw ha => ?relative⟩,
    s.val_eq_error i⟩
  case immediate => exact State.val_of_ea (State.ea_immediate _ hslot)
  case position => exact State.val_of_ea (State.ea_position _ hslot hraw ha)
  case relative => exact State.val_of_ea (State.ea_relative _ hslot hraw ha)

/-- Settles O16: the destination is the effective address for a data write; the three modes are those of R59. -/
theorem destinationAddressByMode : Obligations.DestinationAddressByMode :=
  fun _ _ => ⟨fun _ => rfl, fun hslot =>
    ⟨State.ea_immediate _ hslot, fun _ => State.ea_position _ hslot, fun _ => State.ea_relative _ hslot⟩⟩

/-! ## What an instruction does to memory (R62, R63) -/

/-- What executing `i` from `s` can do to memory: nothing, or one write, at the address that the destination of
`i` has in `s`. -/
inductive MemoryEffect (s : State) (i : Instr) (t : State) : Prop
  /-- an instruction without a destination, a suspended `input`, a fatal condition. -/
  | same (hmem : t.mem = s.mem)
  /-- the instruction has completed. -/
  | written (n : Nat) (m : Mode) (d : Nat) (v : Int) (hdest : i.destination = some (n, m))
      (hdst : s.dst n m = .ok d) (hmem : t.mem = s.mem.write d v)

theorem State.threeOperand_memoryEffect {i : Instr} {ma mb md : Mode}
    {op : Int → Int → Except FatalCondition Int} (hi : i.destination = some (2, md))
    (ht : s.threeOperand ma mb md op = .next t) : MemoryEffect s i t := by
  rcases s.threeOperand_cases ma mb md op t ht with ⟨a, b, d, r, -, -, hd, -, rfl⟩ | ⟨c, rfl, -⟩
  · exact .written 2 md d r hi hd rfl
  · exact .same rfl

theorem execInput_memoryEffect {md : Mode} (ht : execInput md s = .next t) :
    MemoryEffect s (.input md) t := by
  rcases execInput_cases s md t ht with ⟨-, rfl⟩ | ⟨v, q, d, -, hd, rfl⟩ | ⟨v, q, c, -, -, rfl⟩
  · exact .same rfl
  · exact .written 0 md d v rfl hd rfl
  · exact .same rfl

theorem State.jumpWhen_mem {ma mt : Mode} {cond : Int → Bool} (ht : s.jumpWhen ma mt cond = .next t) :
    t.mem = s.mem := by
  rcases s.jumpWhen_cases ma mt cond t ht with
    ⟨a, v, -, -, -, -, rfl⟩ | ⟨a, v, -, -, -, rfl⟩ | ⟨c, rfl, -⟩
  · rfl
  · rfl
  · rfl

theorem execOutput_mem {ma : Mode} (ht : execOutput ma s = .next t) : t.mem = s.mem := by
  rcases execOutput_cases s ma t ht with ⟨a, -, rfl⟩ | ⟨c, -, rfl⟩
  · rfl
  · rfl

theorem execAdjustBase_mem {ma : Mode} (ht : execAdjustBase ma s = .next t) : t.mem = s.mem := by
  rcases execAdjustBase_cases s ma t ht with ⟨a, -, -, rfl⟩ | ⟨c, rfl, -⟩
  · rfl
  · rfl

theorem execHalt_mem (ht : execHalt s = .next t) : t.mem = s.mem := by
  obtain rfl := execHalt_cases s t ht
  rfl

theorem exec_memoryEffect {i : Instr} (ht : exec i s = .next t) : MemoryEffect s i t := by
  cases i with
  | add a b d => exact State.threeOperand_memoryEffect rfl ht
  | mul a b d => exact State.threeOperand_memoryEffect rfl ht
  | input d => exact execInput_memoryEffect ht
  | output a => exact .same (execOutput_mem ht)
  | jumpIfTrue a t => exact .same (State.jumpWhen_mem ht)
  | jumpIfFalse a t => exact .same (State.jumpWhen_mem ht)
  | lessThan a b d => exact State.threeOperand_memoryEffect rfl ht
  | equals a b d => exact State.threeOperand_memoryEffect rfl ht
  | adjustBase a => exact .same (execAdjustBase_mem ht)
  | halt => exact .same (execHalt_mem ht)

/-- Settles O41: the one write an instruction can make is to the address its destination has in the state it
began in, so a destination that is missing or does not resolve leaves memory as it was. -/
theorem memoryChangesOnlyAtTheDestination : Obligations.MemoryChangesOnlyAtTheDestination := by
  intro i s t ht
  cases exec_memoryEffect ht with
  | same hmem =>
    have hsame : SameMemory s t := fun x => by rw [hmem]
    exact ⟨fun _ => hsame, fun _ _ _ => ⟨fun _ _ x _ => hsame x, fun _ _ => hsame⟩⟩
  | written n m d v hdest hdst hmem =>
    refine ⟨fun hnone => ?_, fun n' m' hdest' => ?_⟩
    · cases hnone.symm.trans hdest
    · obtain ⟨rfl, rfl⟩ := Prod.mk.inj (Option.some.inj (hdest.symm.trans hdest'))
      refine ⟨fun d' hd' x hx => ?_, fun c hc => ?_⟩
      · obtain rfl := Except.ok.inj (hdst.symm.trans hd')
        rw [hmem, Memory.read_write, if_neg hx]
      · cases hdst.symm.trans hc

/-! ## A store is seen by the next fetch (R71) -/

/-- A word written where a sequential advance takes pc is the word fetched there. -/
theorem State.fetch_store_advance {n : Nat} (v : Int) (h : s.pc + n < s.cfg.memCap) :
    ((s.store (s.pc + n) v).advance n).fetch = .ok v := by
  refine (State.fetch_eq_ok _ v).2 ⟨h, ?_⟩
  simp [Memory.read_write]

theorem State.threeOperand_fetch {ma mb md : Mode} {op : Int → Int → Except FatalCondition Int}
    {a b r : Int} (ha : s.val 0 ma = .ok a) (hb : s.val 1 mb = .ok b) (hd : s.dst 2 md = .ok (s.pc + 4))
    (hr : op a b = .ok r) : ∃ t, s.threeOperand ma mb md op = .next t ∧ t.fetch = .ok r :=
  ⟨_, s.threeOperand_next ma mb md op a b r _ ha hb hd hr,
    State.fetch_store_advance r (s.dst_lt 2 md _ hd)⟩

/-- `input` with a value in INQ and a destination that resolves. -/
theorem execInput_next {md : Mode} {v : Int} {q : List Int} {d : Nat} (hq : s.inq = v :: q)
    (hd : s.dst 0 md = .ok d) : execInput md s = .next (((s.setInq q).store d v).advance 2) := by
  simp [execInput, hq, hd]

/-- Settles O43: a completed store is in memory, and pc stands at its address, before the next fetch. -/
theorem storeIsSeenByTheNextFetch : Obligations.StoreIsSeenByTheNextFetch := by
  refine ⟨fun ma mb md s a b ha hb hd => ⟨fun hfits => ?add, fun hfits => ?mul, ?lessThan, ?equals⟩,
    fun md s v q hq hd => ?input⟩
  case add => exact State.threeOperand_fetch ha hb hd ((fitting_eq_ok s.cfg 1 (a + b) _).2 ⟨hfits, rfl⟩)
  case mul => exact State.threeOperand_fetch ha hb hd ((fitting_eq_ok s.cfg 2 (a * b) _).2 ⟨hfits, rfl⟩)
  case lessThan => exact State.threeOperand_fetch ha hb hd (congrArg Except.ok (lessWord_eq a b))
  case equals => exact State.threeOperand_fetch ha hb hd (congrArg Except.ok (equalWord_eq a b))
  case input =>
    exact ⟨_, execInput_next hq hd,
      State.fetch_store_advance (s := s.setInq q) v (s.dst_lt 0 md _ hd)⟩

end Sys2Proof.Machine

/-! # Proofs: the decoder and the encoder (`30_encoding.md` R80 to R91, R100) -/

namespace Sys2Proof

open Sys2Proof.Machine

variable {iw : Int}

/-! ## Mode digits, from an operand upwards (R83, R88) -/

/-- The mode digits of `iw` from operand `n` upwards are those of `ms` (R83). -/
def ReadsModes (iw : Int) (n : Nat) (ms : List Mode) : Prop :=
  ∀ k m, ms[k]? = some m → digit iw.toNat (n + k + 2) = m.digit

/-- Among the `count` operands from operand `n` upwards, `k` is the lowest whose mode digit is reserved
(R88). -/
def FirstReserved (iw : Int) (n count k : Nat) : Prop :=
  (n ≤ k ∧ k < n + count) ∧ 2 < digit iw.toNat (k + 2) ∧
    ∀ j, n ≤ j → j < k → digit iw.toNat (j + 2) ≤ 2

@[simp] theorem readsModes_nil (iw : Int) (n : Nat) : ReadsModes iw n [] := by
  intro k m hm
  cases hm

@[simp] theorem readsModes_cons (iw : Int) (n : Nat) (m : Mode) (ms : List Mode) :
    ReadsModes iw n (m :: ms) ↔ decodeMode iw n = .ok m ∧ ReadsModes iw (n + 1) ms := by
  rw [decodeMode_eq_ok]
  constructor
  · intro h
    refine ⟨h 0 m rfl, fun k m' hk => ?_⟩
    have := h (k + 1) m' hk
    rwa [Nat.add_right_comm n 1 k]
  · rintro ⟨hm, hms⟩ k m' hk
    cases k with
    | zero => exact Option.some.inj hk ▸ hm
    | succ k =>
      have := hms k m' hk
      rwa [Nat.add_right_comm n 1 k] at this

theorem exists_decodeMode_eq_ok (iw : Int) (k : Nat) :
    (∃ m, decodeMode iw k = .ok m) ↔ digit iw.toNat (k + 2) ≤ 2 := by
  cases h : decodeMode iw k with
  | ok m =>
    have hdigit := (decodeMode_eq_ok iw k m).1 h
    have hlt := m.digit_lt
    simp; omega
  | error e =>
    have hdigit := ((decodeMode_eq_error iw k e).1 h).1
    simpa using hdigit

@[simp] theorem not_firstReserved_zero (iw : Int) (n k : Nat) : ¬ FirstReserved iw n 0 k := by
  rintro ⟨hk, -⟩
  omega

/-- The lowest reserved digit is that of operand `n`, or operand `n` has a mode and it comes later. -/
theorem firstReserved_succ (iw : Int) (n count k : Nat) :
    FirstReserved iw n (count + 1) k ↔
      (k = n ∧ 2 < digit iw.toNat (n + 2)) ∨
        (∃ m, decodeMode iw n = .ok m) ∧ FirstReserved iw (n + 1) count k := by
  rw [exists_decodeMode_eq_ok]
  constructor
  · rintro ⟨hk, hreserved, hlower⟩
    by_cases hkn : k = n
    · exact .inl ⟨hkn, hkn ▸ hreserved⟩
    · exact .inr ⟨hlower n le_rfl (by omega), by omega, hreserved, fun j hj => hlower j (by omega)⟩
  · rintro (⟨rfl, hreserved⟩ | ⟨hn, hk, hreserved, hlower⟩)
    · exact ⟨by omega, hreserved, fun j hj hjk => by omega⟩
    · refine ⟨by omega, hreserved, fun j hj hjk => ?_⟩
      by_cases hjn : j = n
      · exact hjn ▸ hn
      · exact hlower j (by omega) hjk

/-! ## The three formats with operands (R84) -/

theorem decodeOne_eq_ok_iff_reads (iw : Int) (c : Mode → Instr) (i : Instr) :
    decodeOne iw c = .ok i ↔ ∃ a, ReadsModes iw 0 [a] ∧ c a = i := by
  simp [decodeOne_eq_ok]

theorem decodeTwo_eq_ok_iff_reads (iw : Int) (c : Mode → Mode → Instr) (i : Instr) :
    decodeTwo iw c = .ok i ↔ ∃ a t, ReadsModes iw 0 [a, t] ∧ c a t = i := by
  simp [decodeTwo_eq_ok, and_assoc]

theorem decodeThree_eq_ok_iff_reads (iw : Int) (c : Mode → Mode → Mode → Instr) (i : Instr) :
    decodeThree iw c = .ok i ↔ ∃ a b d, ReadsModes iw 0 [a, b, d] ∧ c a b d = i := by
  simp [decodeThree_eq_ok, and_assoc]

/-! An instruction read in a format has the format's opcode and modes, where every instruction of it has. -/

theorem of_decodeOne_eq_ok {c : Mode → Instr} {n : Nat} {j : Instr}
    (h : decodeOne iw c = .ok j) (hc : ∀ a, (c a).opcode = n ∧ (c a).modes = [a]) :
    j.opcode = n ∧ ReadsModes iw 0 j.modes := by
  obtain ⟨a, hreads, rfl⟩ := (decodeOne_eq_ok_iff_reads iw c j).1 h
  obtain ⟨hop, hmodes⟩ := hc a
  exact ⟨hop, hmodes ▸ hreads⟩

theorem of_decodeTwo_eq_ok {c : Mode → Mode → Instr} {n : Nat} {j : Instr}
    (h : decodeTwo iw c = .ok j) (hc : ∀ a t, (c a t).opcode = n ∧ (c a t).modes = [a, t]) :
    j.opcode = n ∧ ReadsModes iw 0 j.modes := by
  obtain ⟨a, t, hreads, rfl⟩ := (decodeTwo_eq_ok_iff_reads iw c j).1 h
  obtain ⟨hop, hmodes⟩ := hc a t
  exact ⟨hop, hmodes ▸ hreads⟩

theorem of_decodeThree_eq_ok {c : Mode → Mode → Mode → Instr} {n : Nat} {j : Instr}
    (h : decodeThree iw c = .ok j) (hc : ∀ a b d, (c a b d).opcode = n ∧ (c a b d).modes = [a, b, d]) :
    j.opcode = n ∧ ReadsModes iw 0 j.modes := by
  obtain ⟨a, b, d, hreads, rfl⟩ := (decodeThree_eq_ok_iff_reads iw c j).1 h
  obtain ⟨hop, hmodes⟩ := hc a b d
  exact ⟨hop, hmodes ▸ hreads⟩

/-- The decoder's error where `count` operands are to be read: IllegalMode of the lowest reserved one (R88). -/
def ReservedError (iw : Int) (n count : Nat) (e : DecodeError) : Prop :=
  ∃ k, e = .illegalMode iw k ∧ FirstReserved iw n count k

@[simp] theorem not_reservedError_zero (iw : Int) (n : Nat) (e : DecodeError) : ¬ ReservedError iw n 0 e := by
  rintro ⟨k, -, hk⟩
  exact not_firstReserved_zero iw n k hk

@[simp] theorem reservedError_succ (iw : Int) (n count : Nat) (e : DecodeError) :
    ReservedError iw n (count + 1) e ↔ decodeMode iw n = .error e ∨
      ∃ m, decodeMode iw n = .ok m ∧ ReservedError iw (n + 1) count e := by
  simp only [ReservedError, firstReserved_succ, decodeMode_eq_error]
  constructor
  · rintro ⟨k, rfl, ⟨rfl, hreserved⟩ | ⟨⟨m, hm⟩, hk⟩⟩
    · exact .inl ⟨hreserved, rfl⟩
    · exact .inr ⟨m, hm, k, rfl, hk⟩
  · rintro (⟨hreserved, rfl⟩ | ⟨m, hm, k, rfl, hk⟩)
    · exact ⟨n, rfl, .inl ⟨rfl, hreserved⟩⟩
    · exact ⟨k, rfl, .inr ⟨⟨m, hm⟩, hk⟩⟩

theorem decodeOne_eq_error_iff_reserved (iw : Int) (c : Mode → Instr) (e : DecodeError) :
    decodeOne iw c = .error e ↔ ReservedError iw 0 1 e := by
  simp [decodeOne_eq_error]

theorem decodeTwo_eq_error_iff_reserved (iw : Int) (c : Mode → Mode → Instr) (e : DecodeError) :
    decodeTwo iw c = .error e ↔ ReservedError iw 0 2 e := by
  simp [decodeTwo_eq_error]

theorem decodeThree_eq_error_iff_reserved (iw : Int) (c : Mode → Mode → Mode → Instr) (e : DecodeError) :
    decodeThree iw c = .error e ↔ ReservedError iw 0 3 e := by
  simp [decodeThree_eq_error]

/-! ## The decoder, by the opcode (R86, R87) -/

/-- The value modulo 100 of a word that names no instruction (R87). -/
def NoOpcode (n : Nat) : Prop := n = 0 ∨ (10 ≤ n ∧ n ≤ 98)

/-- What the decoder does with `iw` once it has read the opcode of `i`: the same instruction, with the modes of
`iw`. -/
def Instr.reread (iw : Int) : Instr → Except DecodeError Instr
  | .add _ _ _ => decodeThree iw .add
  | .mul _ _ _ => decodeThree iw .mul
  | .input _ => decodeOne iw .input
  | .output _ => decodeOne iw .output
  | .jumpIfTrue _ _ => decodeTwo iw .jumpIfTrue
  | .jumpIfFalse _ _ => decodeTwo iw .jumpIfFalse
  | .lessThan _ _ _ => decodeThree iw .lessThan
  | .equals _ _ _ => decodeThree iw .equals
  | .adjustBase _ => decodeOne iw .adjustBase
  | .halt => .ok .halt

theorem decodeWord_of_opcode {i : Instr} (hnonneg : 0 ≤ iw) (hop : iw.toNat % 100 = i.opcode) :
    decodeWord iw = i.reread iw := by
  cases i <;> simp [decodeWord, not_lt.2 hnonneg, hop, Instr.opcode, Instr.reread]

theorem decodeWord_of_noOpcode (h : NoOpcode (iw.toNat % 100)) :
    decodeWord iw = .error (.illegalOpcode iw) := by
  unfold NoOpcode at h
  unfold decodeWord
  split
  · rfl
  · split
    pick_goal 11
    · rfl
    all_goals omega

theorem Instr.opcode_not_noOpcode (i : Instr) : ¬ NoOpcode i.opcode := by
  cases i <;> simp [NoOpcode, Instr.opcode]

theorem exists_opcode {n : Nat} (hlt : n < 100) (hn : ¬ NoOpcode n) : ∃ i : Instr, i.opcode = n := by
  unfold NoOpcode at hn
  have hcases : n = 1 ∨ n = 2 ∨ n = 3 ∨ n = 4 ∨ n = 5 ∨ n = 6 ∨ n = 7 ∨ n = 8 ∨ n = 9 ∨
      n = 99 := by omega
  rcases hcases with rfl | rfl | rfl | rfl | rfl | rfl | rfl | rfl | rfl | rfl
  · exact ⟨.add .position .position .position, rfl⟩
  · exact ⟨.mul .position .position .position, rfl⟩
  · exact ⟨.input .position, rfl⟩
  · exact ⟨.output .position, rfl⟩
  · exact ⟨.jumpIfTrue .position .position, rfl⟩
  · exact ⟨.jumpIfFalse .position .position, rfl⟩
  · exact ⟨.lessThan .position .position .position, rfl⟩
  · exact ⟨.equals .position .position .position, rfl⟩
  · exact ⟨.adjustBase .position, rfl⟩
  · exact ⟨.halt, rfl⟩

/-- All the decoder can do: reject the word for its opcode, or read the modes of the instruction that the opcode
names. -/
theorem decodeWord_cases (iw : Int) :
    ((iw < 0 ∨ NoOpcode (iw.toNat % 100)) ∧ decodeWord iw = .error (.illegalOpcode iw)) ∨
    ∃ i : Instr, 0 ≤ iw ∧ iw.toNat % 100 = i.opcode ∧ decodeWord iw = i.reread iw := by
  by_cases hneg : iw < 0
  · exact .inl ⟨.inl hneg, decodeWord_negative iw hneg⟩
  · by_cases hop : NoOpcode (iw.toNat % 100)
    · exact .inl ⟨.inr hop, decodeWord_of_noOpcode hop⟩
    · obtain ⟨i, hi⟩ := exists_opcode (Nat.mod_lt _ (by decide)) hop
      exact .inr ⟨i, not_lt.1 hneg, hi.symm, decodeWord_of_opcode (not_lt.1 hneg) hi.symm⟩

theorem Instr.reread_self {i : Instr} (h : ReadsModes iw 0 i.modes) : i.reread iw = .ok i := by
  cases i with
  | add a b d => exact (decodeThree_eq_ok_iff_reads iw .add _).2 ⟨a, b, d, h, rfl⟩
  | mul a b d => exact (decodeThree_eq_ok_iff_reads iw .mul _).2 ⟨a, b, d, h, rfl⟩
  | input d => exact (decodeOne_eq_ok_iff_reads iw .input _).2 ⟨d, h, rfl⟩
  | output a => exact (decodeOne_eq_ok_iff_reads iw .output _).2 ⟨a, h, rfl⟩
  | jumpIfTrue a t => exact (decodeTwo_eq_ok_iff_reads iw .jumpIfTrue _).2 ⟨a, t, h, rfl⟩
  | jumpIfFalse a t => exact (decodeTwo_eq_ok_iff_reads iw .jumpIfFalse _).2 ⟨a, t, h, rfl⟩
  | lessThan a b d => exact (decodeThree_eq_ok_iff_reads iw .lessThan _).2 ⟨a, b, d, h, rfl⟩
  | equals a b d => exact (decodeThree_eq_ok_iff_reads iw .equals _).2 ⟨a, b, d, h, rfl⟩
  | adjustBase a => exact (decodeOne_eq_ok_iff_reads iw .adjustBase _).2 ⟨a, h, rfl⟩
  | halt => rfl

theorem Instr.of_reread_eq_ok {i j : Instr} (h : i.reread iw = .ok j) :
    j.opcode = i.opcode ∧ ReadsModes iw 0 j.modes := by
  cases i with
  | add a b d => exact of_decodeThree_eq_ok h fun _ _ _ => ⟨rfl, rfl⟩
  | mul a b d => exact of_decodeThree_eq_ok h fun _ _ _ => ⟨rfl, rfl⟩
  | input d => exact of_decodeOne_eq_ok h fun _ => ⟨rfl, rfl⟩
  | output a => exact of_decodeOne_eq_ok h fun _ => ⟨rfl, rfl⟩
  | jumpIfTrue a t => exact of_decodeTwo_eq_ok h fun _ _ => ⟨rfl, rfl⟩
  | jumpIfFalse a t => exact of_decodeTwo_eq_ok h fun _ _ => ⟨rfl, rfl⟩
  | lessThan a b d => exact of_decodeThree_eq_ok h fun _ _ _ => ⟨rfl, rfl⟩
  | equals a b d => exact of_decodeThree_eq_ok h fun _ _ _ => ⟨rfl, rfl⟩
  | adjustBase a => exact of_decodeOne_eq_ok h fun _ => ⟨rfl, rfl⟩
  | halt => obtain rfl := Except.ok.inj h; exact ⟨rfl, readsModes_nil iw 0⟩

theorem Instr.reread_eq_error (iw : Int) (i : Instr) (e : DecodeError) :
    i.reread iw = .error e ↔ ReservedError iw 0 i.operandCount e := by
  cases i with
  | add a b d => exact decodeThree_eq_error_iff_reserved iw _ e
  | mul a b d => exact decodeThree_eq_error_iff_reserved iw _ e
  | input d => exact decodeOne_eq_error_iff_reserved iw _ e
  | output a => exact decodeOne_eq_error_iff_reserved iw _ e
  | jumpIfTrue a t => exact decodeTwo_eq_error_iff_reserved iw _ e
  | jumpIfFalse a t => exact decodeTwo_eq_error_iff_reserved iw _ e
  | lessThan a b d => exact decodeThree_eq_error_iff_reserved iw _ e
  | equals a b d => exact decodeThree_eq_error_iff_reserved iw _ e
  | adjustBase a => exact decodeOne_eq_error_iff_reserved iw _ e
  | halt => simp [Instr.reread, Instr.operandCount, Instr.modes]

/-! ## What the decoder accepts and what it rejects -/

theorem readsModes_zero_iff (iw : Int) (ms : List Mode) :
    ReadsModes iw 0 ms ↔ ∀ k m, ms[k]? = some m → iw.toNat / 10 ^ (k + 2) % 10 = m.digit := by
  simp only [ReadsModes, digit, Nat.zero_add]

/-- Settles O6: the opcode names the instruction up to its modes, and the mode digits give those. -/
theorem decoderReadsTheDecimalDigits : Obligations.DecoderReadsTheDecimalDigits := by
  intro iw i
  rw [← readsModes_zero_iff]
  constructor
  · intro hdecode
    rcases decodeWord_cases iw with ⟨-, hreject⟩ | ⟨i', hnonneg, hop, hreread⟩
    · cases hreject.symm.trans hdecode
    · obtain ⟨hsame, hmodes⟩ := Instr.of_reread_eq_ok (hreread.symm.trans hdecode)
      exact ⟨hnonneg, hop.trans hsame.symm, hmodes⟩
  · rintro ⟨hnonneg, hop, hmodes⟩
    exact (decodeWord_of_opcode hnonneg hop).trans (Instr.reread_self hmodes)

/-- Settles O9: a word with an opcode can only be rejected for a mode digit. -/
theorem illegalOpcodeWords : Obligations.IllegalOpcodeWords := by
  intro iw w
  rcases decodeWord_cases iw with ⟨hillegal, hreject⟩ | ⟨i, hnonneg, hop, hreread⟩
  · rw [hreject, Except.error.injEq, DecodeError.illegalOpcode.injEq]
    exact ⟨fun h => ⟨h.symm, hillegal⟩, fun h => h.1.symm⟩
  · rw [hreread, Instr.reread_eq_error]
    constructor
    · rintro ⟨k, hk, -⟩
      cases hk
    · rintro ⟨-, hneg | hnone⟩
      · exact absurd hnonneg (not_le.2 hneg)
      · exact absurd (hop ▸ hnone) i.opcode_not_noOpcode

theorem reservedError_illegalMode (iw w : Int) (count k : Nat) :
    ReservedError iw 0 count (.illegalMode w k) ↔ w = iw ∧ k < count ∧
      2 < iw.toNat / 10 ^ (k + 2) % 10 ∧ ∀ j, j < k → iw.toNat / 10 ^ (j + 2) % 10 ≤ 2 := by
  simp [ReservedError, FirstReserved, digit, and_assoc]

/-- Settles O10: a word with the opcode of `i` is rejected for the lowest of `i`'s operands whose digit is
reserved. -/
theorem reservedModeDigits : Obligations.ReservedModeDigits := by
  intro iw w k
  constructor
  · intro hdecode
    rcases decodeWord_cases iw with ⟨-, hreject⟩ | ⟨i, hnonneg, hop, hreread⟩
    · cases hreject.symm.trans hdecode
    · rw [hreread, Instr.reread_eq_error, reservedError_illegalMode] at hdecode
      obtain ⟨hw, hk⟩ := hdecode
      exact ⟨hw, hnonneg, i, hop.symm, hk⟩
  · rintro ⟨hw, hnonneg, i, hop, hk⟩
    rw [decodeWord_of_opcode hnonneg hop.symm, Instr.reread_eq_error, reservedError_illegalMode]
    exact ⟨hw, hk⟩

/-! ## The encoder (R100) -/

/-- Digit `k` of the number of the mode digits is that of mode `k`, whatever stands above them. -/
theorem modeDigits_digit {ms : List Mode} {k : Nat} {m : Mode} (h : Nat) (hk : ms[k]? = some m) :
    (modeDigits ms + 10 ^ ms.length * h) / 10 ^ k % 10 = m.digit := by
  induction ms generalizing k with
  | nil => cases hk
  | cons m' ms ih =>
    have hsplit : modeDigits (m' :: ms) + 10 ^ (m' :: ms).length * h =
        m'.digit + 10 * (modeDigits ms + 10 ^ ms.length * h) := by
      simp only [modeDigits, List.length_cons]
      ring
    have hlt := m'.digit_lt
    rw [hsplit]
    cases k with
    | zero =>
      obtain rfl := Option.some.inj hk
      omega
    | succ k =>
      have hdrop (n : Nat) : (m'.digit + 10 * n) / 10 = n := by omega
      rw [pow_succ', ← Nat.div_div_eq_div_mul, hdrop]
      exact ih hk

/-- Settles O7: the low two digits of the word are the opcode, and what is above them are the mode digits. -/
theorem encodedWordDecodesBack : Obligations.EncodedWordDecodesBack := by
  intro i h
  have hvalue : (encodeWord i + ((10 ^ (2 + i.operandCount) * h : Nat) : Int)).toNat =
      i.opcode + 100 * (modeDigits i.modes + 10 ^ i.modes.length * h) := by
    rw [encodeWord, ← Nat.cast_add, Int.toNat_natCast, Instr.operandCount_eq]
    ring
  have hop := i.opcode_lt
  refine (decoderReadsTheDecimalDigits _ i).2 ⟨by unfold encodeWord; positivity, ?_, fun k m hk => ?_⟩
  · rw [hvalue]
    omega
  · have hdrop (n : Nat) : (i.opcode + 100 * n) / 10 ^ 2 = n := by omega
    rw [hvalue, Nat.add_comm k 2, pow_add, ← Nat.div_div_eq_div_mul, hdrop]
    exact modeDigits_digit h hk

theorem decodeWord_encodeWord (i : Instr) : decodeWord (encodeWord i) = .ok i := by
  simpa using encodedWordDecodesBack i 0

/-- Settles O8: the decoded instruction says how many of the words after its own are its operands. -/
theorem encodedCodeDecodesBack : Obligations.EncodedCodeDecodesBack := by
  rintro cfg ⟨i, operands⟩ rest ⟨hlength, -⟩
  have hlength : operands.length = i.operandCount := hlength
  constructor
  · simp [encode, decodeCode, decodeWord_encodeWord, ← hlength]
  · simp [encode, Instr.width, hlength, Nat.add_comm]

/-- Settles O12: closed words, which the decoder evaluates. -/
theorem writtenOutWordsDecode : Obligations.WrittenOutWordsDecode := by
  unfold Obligations.WrittenOutWordsDecode
  decide

end Sys2Proof

/-! # Proofs: the text of a program (`30_encoding.md` R97 to R99) -/

namespace Sys2Proof.Machine

open Sys2Proof

variable {cfg : Config} {s : State}

/-! ## Digits -/

theorem digitChar_toNat {d : Nat} (hd : d < 10) : (digitChar d).toNat = 48 + d := by
  have hvalid : (48 + d).isValidChar := .inl (by omega)
  simp [digitChar, Char.toNat_ofNat, hvalid]

/-- A character is a digit of value `d` exactly when it is the character of `d`. -/
theorem digitValue_eq_some {c : Char} {d : Nat} : digitValue c = some d ↔ d < 10 ∧ c = digitChar d := by
  unfold digitValue
  constructor
  · intro h
    obtain ⟨hrange, hd⟩ := Option.ite_none_right_eq_some.1 h
    have hd : c.toNat - 48 = d := Option.some.inj hd
    have hc : c.toNat = 48 + d := by omega
    exact ⟨by omega, by rw [digitChar, ← hc, Char.ofNat_toNat]⟩
  · rintro ⟨hd, rfl⟩
    rw [digitChar_toNat hd, if_pos (by omega), Nat.add_sub_cancel_left]

/-- A character that no integer contains: neither a digit nor the sign (R97). -/
def Separator (c : Char) : Prop := digitValue c = none ∧ c ≠ '-'

theorem separator_comma : Separator ',' := by unfold Separator; decide

theorem separator_newline : Separator '\n' := by unfold Separator; decide

theorem digitValue_minus : digitValue '-' = none := by decide

theorem not_mem_map_digitChar {c : Char} {ds : List Nat} (hc : digitValue c = none)
    (hds : ∀ d ∈ ds, d < 10) : c ∉ ds.map digitChar := by
  intro hmem
  obtain ⟨d, hd, rfl⟩ := List.mem_map.1 hmem
  cases hc.symm.trans (digitValue_eq_some.2 ⟨hds d hd, rfl⟩)

theorem IsDigits.not_mem {c : Char} {tok : List Char} {n : Nat} (h : IsDigits tok n)
    (hc : digitValue c = none) : c ∉ tok := by
  obtain ⟨ds, -, hds, rfl, -⟩ := h
  exact not_mem_map_digitChar hc hds

theorem IsInteger.not_mem {c : Char} {tok : List Char} {v : Int} (h : IsInteger tok v)
    (hc : Separator c) : c ∉ tok := by
  obtain ⟨hdigit, hminus⟩ := hc
  obtain ⟨n, ⟨hn, -⟩ | ⟨ds, rfl, hn, -⟩⟩ := h
  · exact hn.not_mem hdigit
  · exact List.not_mem_cons_of_ne_of_not_mem hminus (hn.not_mem hdigit)

/-! ## One integer -/

/-- The digits read after `acc` continue its decimal value. -/
theorem parseDigits_eq_some {acc n : Nat} {cs : List Char} :
    parseDigits acc cs = some n ↔
      ∃ ds : List Nat, (∀ d ∈ ds, d < 10) ∧ cs = ds.map digitChar ∧
        n = ds.foldl (fun acc d => 10 * acc + d) acc := by
  induction cs generalizing acc with
  | nil =>
    constructor
    · intro h
      exact ⟨[], by simp, rfl, (Option.some.inj h).symm⟩
    · rintro ⟨ds, -, hnil, rfl⟩
      obtain rfl := List.map_eq_nil_iff.1 hnil.symm
      rfl
  | cons c cs ih =>
    unfold parseDigits
    constructor
    · intro h
      split at h
      · cases h
      · next d hd =>
        obtain ⟨hlt, rfl⟩ := digitValue_eq_some.1 hd
        obtain ⟨ds, hds, rfl, rfl⟩ := ih.1 h
        exact ⟨d :: ds, List.forall_mem_cons.2 ⟨hlt, hds⟩, rfl, rfl⟩
    · rintro ⟨ds, hds, hcs, rfl⟩
      obtain ⟨d, ds, rfl, rfl, rfl⟩ := List.map_eq_cons_iff.1 hcs.symm
      obtain ⟨hlt, hds⟩ := List.forall_mem_cons.1 hds
      rw [digitValue_eq_some.2 ⟨hlt, rfl⟩]
      exact ih.2 ⟨ds, hds, rfl, rfl⟩

theorem not_isDigits_nil (n : Nat) : ¬ IsDigits [] n := by
  rintro ⟨ds, hne, -, hnil, -⟩
  exact hne (List.map_eq_nil_iff.1 hnil.symm)

theorem parseNatural_eq_some {n : Nat} {cs : List Char} : parseNatural cs = some n ↔ IsDigits cs n := by
  cases cs with
  | nil => exact ⟨fun h => (nomatch h), fun h => absurd h (not_isDigits_nil n)⟩
  | cons c cs =>
    refine parseDigits_eq_some.trans (exists_congr fun ds => ⟨fun h => ⟨?_, h⟩, fun h => h.2⟩)
    rintro rfl
    cases h.2.1

theorem parseInteger_eq_some {v : Int} {tok : List Char} : parseInteger tok = some v ↔ IsInteger tok v := by
  unfold parseInteger IsInteger
  cases tok with
  | nil => simp [not_isDigits_nil]
  | cons c cs =>
    by_cases hc : c = '-'
    · subst hc
      have hsign (n : Nat) : ¬ IsDigits ('-' :: cs) n := fun h => h.not_mem digitValue_minus (by simp)
      simp [hsign, Option.map_eq_some_iff, parseNatural_eq_some, @eq_comm Int v]
    · simp [hc, Option.map_eq_some_iff, parseNatural_eq_some, @eq_comm Int v]

theorem parseWord_eq_some {v : Int} {tok : List Char} :
    parseWord cfg tok = some v ↔ IsInteger tok v ∧ cfg.fits v := by
  rw [← parseInteger_eq_some]
  unfold parseWord
  cases parseInteger tok with
  | none => simp
  | some u =>
    rw [Option.ite_none_right_eq_some, Option.some.injEq, and_comm]
    exact and_congr_right fun h => h ▸ Iff.rfl

/-! ## Integers between commas -/

theorem parseTokens_eq_some {toks : List (List Char)} {ws : List Int} :
    parseTokens cfg toks = some ws ↔ List.Forall₂ IsInteger toks ws ∧ ∀ v ∈ ws, cfg.fits v := by
  induction toks generalizing ws with
  | nil =>
    rw [List.forall₂_nil_left_iff]
    refine ⟨fun h => ?_, fun h => congrArg some h.1.symm⟩
    obtain rfl := Option.some.inj h
    simp
  | cons tok toks ih =>
    unfold parseTokens
    rw [List.forall₂_cons_left_iff]
    constructor
    · intro h
      split at h
      · cases h
      · next v hv =>
        obtain ⟨vs, hvs, rfl⟩ := Option.map_eq_some_iff.1 h
        obtain ⟨htok, hfits⟩ := parseWord_eq_some.1 hv
        obtain ⟨htoks, hrest⟩ := ih.1 hvs
        exact ⟨⟨v, vs, htok, htoks, rfl⟩, List.forall_mem_cons.2 ⟨hfits, hrest⟩⟩
    · rintro ⟨⟨v, vs, htok, htoks, rfl⟩, hfits⟩
      obtain ⟨hv, hvs⟩ := List.forall_mem_cons.1 hfits
      rw [parseWord_eq_some.2 ⟨htok, hv⟩, ih.2 ⟨htoks, hvs⟩]
      rfl

theorem splitCommas_eq_splitOn (cs : List Char) : splitCommas cs = cs.splitOn ',' := by
  induction cs with
  | nil => rfl
  | cons c cs ih =>
    unfold splitCommas
    rw [ih, List.splitOn, List.splitOn, List.splitOnP_cons_eq_if_modifyHead]
    simp only [beq_iff_eq]
    split
    · rfl
    · cases h : List.splitOnP (fun x => x == ',') cs with
      | nil => exact absurd h (List.splitOnP_ne_nil _ _)
      | cons tok toks => rfl

theorem intercalate_cons_eq_append_flatMap (tok : List Char) (toks : List (List Char)) :
    [','].intercalate (tok :: toks) = tok ++ toks.flatMap (',' :: ·) := by
  induction toks generalizing tok with
  | nil => simp
  | cons tok' toks ih => simp [List.intercalate_cons_cons, ih]

/-- The grammar's `( "," integer )*` is a comma before each of a list of integers. -/
theorem isMore_iff {rest : List Char} {vs : List Int} :
    IsMore rest vs ↔ ∃ toks, List.Forall₂ IsInteger toks vs ∧ rest = toks.flatMap (',' :: ·) := by
  constructor
  · intro h
    induction h with
    | done => exact ⟨[], .nil, rfl⟩
    | more tok rest v vs h hs ih =>
      obtain ⟨toks, htoks, rfl⟩ := ih
      exact ⟨tok :: toks, .cons h htoks, rfl⟩
  · rintro ⟨toks, htoks, rfl⟩
    induction htoks with
    | nil => exact .done
    | cons h htoks ih => exact .more _ _ _ _ h ih

/-- A text of the grammar without its trailing newline: one or more integers with commas between them. -/
def IsBody (cs : List Char) (ws : List Int) : Prop :=
  ∃ toks, toks ≠ [] ∧ List.Forall₂ IsInteger toks ws ∧ cs = [','].intercalate toks

theorem isText_iff {text : List Char} {ws : List Int} :
    IsText text ws ↔ ∃ cs nl, IsBody cs ws ∧ (nl = [] ∨ nl = ['\n']) ∧ text = cs ++ nl := by
  constructor
  · rintro ⟨tok, rest, nl, v, vs, h, hs, hnl, rfl, rfl⟩
    obtain ⟨toks, htoks, rfl⟩ := isMore_iff.1 hs
    exact ⟨_, nl, ⟨tok :: toks, by simp, .cons h htoks, rfl⟩, hnl,
      by rw [intercalate_cons_eq_append_flatMap]⟩
  · rintro ⟨cs, nl, ⟨toks, hne, htoks, rfl⟩, hnl, rfl⟩
    cases htoks with
    | nil => exact absurd rfl hne
    | @cons tok v toks vs h htoks =>
      exact ⟨tok, _, nl, v, vs, h, isMore_iff.2 ⟨toks, htoks, rfl⟩, hnl,
        by rw [intercalate_cons_eq_append_flatMap], rfl⟩

theorem not_mem_of_forall₂_isInteger {c : Char} {toks : List (List Char)} {ws : List Int}
    (h : List.Forall₂ IsInteger toks ws) (hc : Separator c) : ∀ tok ∈ toks, c ∉ tok := by
  induction h with
  | nil => simp
  | cons hv _ ih => exact List.forall_mem_cons.2 ⟨hv.not_mem hc, ih⟩

theorem IsBody.newline_not_mem {cs : List Char} {ws : List Int} (h : IsBody cs ws) : '\n' ∉ cs := by
  obtain ⟨toks, hne, htoks, rfl⟩ := h
  have hfree := not_mem_of_forall₂_isInteger htoks separator_newline
  cases toks with
  | nil => exact absurd rfl hne
  | cons tok toks =>
    obtain ⟨htok, hrest⟩ := List.forall_mem_cons.1 hfree
    rw [intercalate_cons_eq_append_flatMap]
    simpa [htok] using hrest

/-- Splitting at the commas finds the integers of a body, since an integer contains no comma. -/
theorem parseTokens_splitCommas_eq_some {cs : List Char} {ws : List Int} :
    parseTokens cfg (splitCommas cs) = some ws ↔ IsBody cs ws ∧ ∀ v ∈ ws, cfg.fits v := by
  rw [parseTokens_eq_some]
  refine and_congr_left fun _ => ⟨fun htoks => ⟨_, splitCommas_ne_nil cs, htoks, ?_⟩, ?_⟩
  · rw [splitCommas_eq_splitOn, List.intercalate_splitOn]
  · rintro ⟨toks, hne, htoks, rfl⟩
    have hfree := not_mem_of_forall₂_isInteger htoks separator_comma
    rwa [splitCommas_eq_splitOn, List.splitOn_intercalate _ hfree hne]

/-! ## The trailing newline -/

theorem dropNewline_append_newline (cs : List Char) : dropNewline (cs ++ ['\n']) = cs := by
  induction cs with
  | nil => rfl
  | cons c cs ih => simp [dropNewline, ih]

theorem dropNewline_eq_self {cs : List Char} (h : '\n' ∉ cs) : dropNewline cs = cs := by
  induction cs with
  | nil => rfl
  | cons c cs ih =>
    obtain ⟨hc, hcs⟩ := not_or.1 (mt List.mem_cons.2 h)
    simp [dropNewline, Ne.symm hc, ih hcs]

theorem eq_dropNewline_append (text : List Char) :
    ∃ nl, (nl = [] ∨ nl = ['\n']) ∧ text = dropNewline text ++ nl := by
  induction text with
  | nil => exact ⟨[], .inl rfl, rfl⟩
  | cons c cs ih =>
    unfold dropNewline
    split
    · next h => exact ⟨['\n'], .inr rfl, by simp [h]⟩
    · obtain ⟨nl, hnl, hcs⟩ := ih
      exact ⟨nl, hnl, congrArg (c :: ·) hcs⟩

/-! ## The parser and the load of a text -/

/-- Settles O50: without its newline the text splits at its commas into its integers, each of which the parser
reads as the grammar does. -/
theorem parserAcceptsExactlyTheGrammar : Obligations.ParserAcceptsExactlyTheGrammar := by
  intro cfg text ws
  rw [parseText, parseTokens_splitCommas_eq_some, isText_iff]
  refine and_congr_left fun _ => ⟨fun hbody => ?_, ?_⟩
  · obtain ⟨nl, hnl, htext⟩ := eq_dropNewline_append text
    exact ⟨_, nl, hbody, hnl, htext⟩
  · rintro ⟨cs, nl, hbody, rfl | rfl, rfl⟩
    · rwa [List.append_nil, dropNewline_eq_self hbody.newline_not_mem]
    · rwa [dropNewline_append_newline]

theorem parseText_eq_none {text : List Char}
    (h : ¬ ∃ ws, IsText text ws ∧ ∀ v ∈ ws, cfg.fits v) : parseText cfg text = none :=
  Option.eq_none_iff_forall_ne_some.2 fun ws hws =>
    h ⟨ws, (parserAcceptsExactlyTheGrammar cfg text ws).1 hws⟩

theorem hostLoad_eq_loadImage {ws : List Int} (hne : ws ≠ []) (hfits : ∀ v ∈ ws, s.cfg.fits v) :
    hostLoad ws s = s.loadImage ws := by
  cases ws with
  | nil => exact absurd rfl hne
  | cons w ws => simp only [hostLoad, State.presented, (notWord_eq_none s.cfg _).2 hfits]

theorem perform_load_of_booting {ws : List Int} (hs : s.status = .booting) :
    perform (.load ws) s = hostLoad ws s := by
  simp [perform, transact, legal, Txn.kind, hs]

theorem perform_loadText_of_booting {text : List Char} (hs : s.status = .booting) :
    perform (.loadText text) s = hostLoadText text s := by
  simp [perform, transact, legal, Txn.kind, hs]

/-- Settles O51: the text's values are words and at least one, so the port of LOAD takes them. -/
theorem loadOfATextIsLoadOfItsWords : Obligations.LoadOfATextIsLoadOfItsWords := by
  intro s text hs
  rw [perform_loadText_of_booting hs]
  refine ⟨fun hnone => ?_, fun ws htext hfits => ?_⟩
  · simp only [hostLoadText, parseText_eq_none hnone]
    rfl
  · have hparse := (parserAcceptsExactlyTheGrammar s.cfg text ws).2 ⟨htext, hfits⟩
    obtain ⟨hne, -⟩ := parseText_words s.cfg text ws hparse
    rw [perform_load_of_booting hs, hostLoad_eq_loadImage hne hfits]
    simp only [hostLoadText, hparse]

theorem State.loadImage_next {ws : List Int} (h : ws.length ≤ s.cfg.memCap) :
    s.loadImage ws = .next (({ s with mem := s.mem.writeAll 0 ws } : State).setStatus .ready) := by
  rw [State.loadImage, if_neg (not_lt.2 h), State.commit_ok]

theorem perform_peek_of_ready {a : Nat} (hs : s.status = .ready) (ha : a < s.cfg.memCap) :
    perform (.peek (a : Int)) s = .next (s.answer (.peek (s.mem.read a))) := by
  simp [perform, transact, legal, Txn.kind, hs, hostPeek, checkAddr_inRange _ _ _ ha]

/-- Settles O52: memory is zero in Booting, so after the load it reads as the text's words and 0 beyond them. -/
theorem loadedTextReadsBack : Obligations.LoadedTextReadsBack := by
  rintro s text ws hs ⟨hzero, -⟩ htext ⟨hne, hfits, hlength⟩
  have hload := (loadOfATextIsLoadOfItsWords s text hs).2 ws htext hfits
  rw [perform_load_of_booting hs, hostLoad_eq_loadImage hne hfits, State.loadImage_next hlength] at hload
  refine ⟨_, hload, fun a ha => ?_⟩
  have hread : (s.mem.writeAll 0 ws).read a = ws.getD a 0 := by
    rw [hzero hs, Memory.read_writeAll]
    by_cases hlt : a < ws.length
    · simp [hlt]
    · simp [hlt]
  rw [← hread]
  exact perform_peek_of_ready rfl ha

end Sys2Proof.Machine

/-! # Proofs: the execution loop (`40_execution_loop.md`) -/

namespace Sys2Proof.Machine

open Sys2Proof

variable {s t : State}

/-! ## Output granularity (R119) -/

/-- What R119 lets a part of a run span do to OUTQ: one value where it ends with ProducedOutput, else nothing. -/
def SpanOutput (s t : State) : Prop :=
  (t.status = .interrupted .producedOutput ∧ ∃ v, t.outq = s.outq ++ [v]) ∨
    (t.status ≠ .interrupted .producedOutput ∧ t.outq = s.outq)

theorem SpanOutput.outq_of_running (h : SpanOutput s t) (ht : t.status = .running) : t.outq = s.outq := by
  rcases h with ⟨hyield, -⟩ | ⟨-, houtq⟩
  · cases ht.symm.trans hyield
  · exact houtq

theorem exec_spanOutput {i : Instr} (hs : s.status = .running) (ht : exec i s = .next t) :
    SpanOutput s t := by
  have hrunning : s.status ≠ .interrupted .producedOutput := by simp [hs]
  cases exec_effect ht with
  | pushed ma v hv => exact .inl ⟨rfl, v, rfl⟩
  | stored i d r => exact .inr ⟨hrunning, rfl⟩
  | jumped i a => exact .inr ⟨hrunning, rfl⟩
  | taken md d v q hq => exact .inr ⟨hrunning, rfl⟩
  | adjusted ma v => exact .inr ⟨hrunning, rfl⟩
  | _ => exact .inr ⟨nofun, rfl⟩

theorem coreStep_spanOutput (hs : s.status = .running) (ht : coreStep s = .next t) : SpanOutput s t := by
  rcases coreStep_cases s t ht with ⟨i, -, hi⟩ | ⟨c, -, rfl⟩
  · exact exec_spanOutput hs hi
  · exact .inr ⟨nofun, rfl⟩

theorem runLoop_of_stopped (n : Nat) (hs : s.status ≠ .running) : runLoop n s = .next s := by
  cases n with
  | zero => rfl
  | succ n => rw [runLoop, if_neg hs]

/-- The loop of a Running core begins with a step. -/
theorem runLoop_succ_cases {n : Nat} (hs : s.status = .running) (ht : runLoop (n + 1) s = .next t) :
    ∃ u, coreStep s = .next u ∧ runLoop n u = .next t := by
  rw [runLoop, if_pos hs] at ht
  split at ht
  · rename_i u hu
    exact ⟨u, hu, ht⟩
  · cases ht
  · cases ht

/-- Settles O44, by induction on the number of steps: a step that leaves the core Running adds nothing to OUTQ,
and a step that stops it is the last of the span. -/
theorem oneOutputPerRunSpan : Obligations.OneOutputPerRunSpan := by
  intro n
  induction n with
  | zero =>
    intro s t hs ht
    obtain rfl := Host.Outcome.next.inj ht
    exact .inr ⟨by simp [hs], rfl⟩
  | succ n ih =>
    intro s t hs ht
    obtain ⟨u, hstep, hrest⟩ := runLoop_succ_cases hs ht
    have hu := coreStep_spanOutput hs hstep
    by_cases hrunning : u.status = .running
    · rw [← hu.outq_of_running hrunning]
      exact ih u t hrunning hrest
    · obtain rfl := Host.Outcome.next.inj ((runLoop_of_stopped n hrunning).symm.trans hrest)
      exact hu

/-! ## Every instruction answers a next state (R114, R205) -/

theorem execInput_next_exists (md : Mode) (s : State) : ∃ t, execInput md s = .next t := by
  unfold execInput
  split
  · exact ⟨_, rfl⟩
  · exact s.commit_next _

/-- Settles O35: every meaning but `halt` and the suspended `input`, which answer outright, is a committed
computation. -/
theorem everyInstructionAnswersNext : Obligations.EveryInstructionAnswersNext := by
  intro i s
  cases i with
  | add a b d => exact s.commit_next _
  | mul a b d => exact s.commit_next _
  | input d => exact execInput_next_exists d s
  | output a => exact s.commit_next _
  | jumpIfTrue a t => exact s.commit_next _
  | jumpIfFalse a t => exact s.commit_next _
  | lessThan a b d => exact s.commit_next _
  | equals a b d => exact s.commit_next _
  | adjustBase a => exact s.commit_next _
  | halt => exact ⟨_, rfl⟩

/-! ## Fetch and decode (R111, R112, R203) -/

theorem coreStep_of_outOfRange (hpc : s.cfg.memCap ≤ s.pc) :
    coreStep s = .next (s.raise (.addressFault (s.pc : Int) .fetch)) :=
  coreStep_of_fetchDecode_error ((s.fetchDecode_eq_error _).2 (.inl ⟨hpc, rfl⟩))

theorem coreStep_of_rejected {e : DecodeError} (hpc : s.pc < s.cfg.memCap)
    (he : decodeWord (s.mem.read s.pc) = .error e) : coreStep s = .next (s.raise (fatalOfDecode e)) :=
  coreStep_of_fetchDecode_error ((s.fetchDecode_eq_error _).2 (.inr ⟨hpc, e, he, rfl⟩))

theorem coreStep_of_decoded {i : Instr} (hpc : s.pc < s.cfg.memCap)
    (hi : decodeWord (s.mem.read s.pc) = .ok i) : coreStep s = exec i s :=
  coreStep_of_fetchDecode ((s.fetchDecode_eq_ok i).2 ⟨hpc, hi⟩)

/-- Settles O36: the step of a pc out of range, of a rejected word and of a decoded word. -/
theorem fetchAndDecodeFaults : Obligations.FetchAndDecodeFaults :=
  fun _ => ⟨coreStep_of_outOfRange, fun hpc => ⟨fun _ => coreStep_of_rejected hpc,
    fun _ _ => coreStep_of_rejected hpc, fun _ => coreStep_of_decoded hpc⟩⟩

/-! ## What an instruction can raise (`60_exceptions.md` R202) -/

theorem State.raisable_of_val_error {i : Instr} {n : Nat} {m : Mode} {c : FatalCondition}
    (hslot : accessRaisable i .operandSlot = true) (hread : accessRaisable i .dataRead = true)
    (h : s.val n m = .error c) : raisable i c = true := by
  obtain ⟨a, rfl | rfl⟩ := s.val_error_kind n m c h
  · exact hslot
  · exact hread

theorem State.raisable_of_dst_error {i : Instr} {n : Nat} {m : Mode} {c : FatalCondition}
    (hslot : accessRaisable i .operandSlot = true) (hwrite : accessRaisable i .dataWrite = true)
    (h : s.dst n m = .error c) : raisable i c = true := by
  obtain ⟨a, rfl | rfl⟩ := s.ea_error_kind n m .dataWrite c h
  · exact hslot
  · exact hwrite

theorem raisable_of_fitting_error {i : Instr} {cfg : Config} {op : Nat} {r : Int} {c : FatalCondition}
    (hop : raisable i (.arithOverflow op) = true) (h : fitting cfg op r = .error c) :
    raisable i c = true := by
  obtain ⟨-, rfl⟩ := (fitting_eq_error cfg op r c).1 h
  exact hop

theorem State.threeOperand_raisable {i : Instr} {ma mb md : Mode}
    {op : Int → Int → Except FatalCondition Int} {c : FatalCondition}
    (hslot : accessRaisable i .operandSlot = true) (hread : accessRaisable i .dataRead = true)
    (hwrite : accessRaisable i .dataWrite = true)
    (hop : ∀ a b, op a b = .error c → raisable i c = true) (hs : s.status = .running)
    (ht : s.threeOperand ma mb md op = .next t) (hc : t.status = .faulted c) : raisable i c = true := by
  rcases s.threeOperand_cases ma mb md op t ht with ⟨a, b, d, r, -, -, -, -, rfl⟩ | ⟨c', rfl, hcause⟩
  · cases hs.symm.trans hc
  · cases hc
    rcases hcause with ha | ⟨a, -, hb⟩ | ⟨a, b, -, -, hd⟩ | ⟨a, b, d, -, -, -, hr⟩
    · exact State.raisable_of_val_error hslot hread ha
    · exact State.raisable_of_val_error hslot hread hb
    · exact State.raisable_of_dst_error hslot hwrite hd
    · exact hop a b hr

theorem State.jumpWhen_raisable {i : Instr} {ma mt : Mode} {cond : Int → Bool} {c : FatalCondition}
    (hslot : accessRaisable i .operandSlot = true) (hread : accessRaisable i .dataRead = true)
    (hjump : accessRaisable i .jumpTarget = true) (hs : s.status = .running)
    (ht : s.jumpWhen ma mt cond = .next t) (hc : t.status = .faulted c) : raisable i c = true := by
  rcases s.jumpWhen_cases ma mt cond t ht with
    ⟨a, v, -, -, -, -, rfl⟩ | ⟨a, v, -, -, -, rfl⟩ | ⟨c', rfl, hcause⟩
  · cases hs.symm.trans hc
  · cases hs.symm.trans hc
  · cases hc
    rcases hcause with ha | ⟨a, -, hv⟩ | ⟨a, v, -, -, -, -, rfl⟩
    · exact State.raisable_of_val_error hslot hread ha
    · exact State.raisable_of_val_error hslot hread hv
    · exact hjump

theorem execInput_raisable {md : Mode} {c : FatalCondition} (hs : s.status = .running)
    (ht : execInput md s = .next t) (hc : t.status = .faulted c) : raisable (.input md) c = true := by
  rcases execInput_cases s md t ht with ⟨-, rfl⟩ | ⟨v, q, d, -, -, rfl⟩ | ⟨v, q, c', -, hd, rfl⟩
  · cases hc
  · cases hs.symm.trans hc
  · cases hc
    exact State.raisable_of_dst_error rfl rfl hd

theorem execOutput_raisable {ma : Mode} {c : FatalCondition} (ht : execOutput ma s = .next t)
    (hc : t.status = .faulted c) : raisable (.output ma) c = true := by
  rcases execOutput_cases s ma t ht with ⟨a, -, rfl⟩ | ⟨c', ha, rfl⟩
  · cases hc
  · cases hc
    exact State.raisable_of_val_error rfl rfl ha

theorem execAdjustBase_raisable {ma : Mode} {c : FatalCondition} (hs : s.status = .running)
    (ht : execAdjustBase ma s = .next t) (hc : t.status = .faulted c) :
    raisable (.adjustBase ma) c = true := by
  rcases execAdjustBase_cases s ma t ht with ⟨a, -, -, rfl⟩ | ⟨c', rfl, hcause⟩
  · cases hs.symm.trans hc
  · cases hc
    rcases hcause with ha | ⟨a, -, -, rfl⟩
    · exact State.raisable_of_val_error rfl rfl ha
    · rfl

theorem exec_raisable {i : Instr} {c : FatalCondition} (hs : s.status = .running)
    (ht : exec i s = .next t) (hc : t.status = .faulted c) : raisable i c = true := by
  cases i with
  | add a b d =>
    exact State.threeOperand_raisable rfl rfl rfl (fun _ _ => raisable_of_fitting_error rfl) hs ht hc
  | mul a b d =>
    exact State.threeOperand_raisable rfl rfl rfl (fun _ _ => raisable_of_fitting_error rfl) hs ht hc
  | input d => exact execInput_raisable hs ht hc
  | output a => exact execOutput_raisable ht hc
  | jumpIfTrue a t => exact State.jumpWhen_raisable rfl rfl rfl hs ht hc
  | jumpIfFalse a t => exact State.jumpWhen_raisable rfl rfl rfl hs ht hc
  | lessThan a b d => exact State.threeOperand_raisable rfl rfl rfl (fun _ _ h => by cases h) hs ht hc
  | equals a b d => exact State.threeOperand_raisable rfl rfl rfl (fun _ _ h => by cases h) hs ht hc
  | adjustBase a => exact execAdjustBase_raisable hs ht hc
  | halt =>
    obtain rfl := execHalt_cases s t ht
    cases hc

/-- What an instruction can raise is never a condition of the host's. -/
theorem ofStep_of_raisable {i : Instr} {c : FatalCondition} (h : raisable i c = true) :
    c.ofStep = true := by
  cases c with
  | loadFormat => cases h
  | illegalOpcode iw => rfl
  | addressFault a k =>
    cases k with
    | host => cases h
    | _ => rfl
  | illegalMode iw n => rfl
  | arithOverflow op => rfl

theorem State.ofStep_of_fetchDecode_error {c : FatalCondition} (h : s.fetchDecode = .error c) :
    c.ofStep = true := by
  rcases (s.fetchDecode_eq_error c).1 h with ⟨-, rfl⟩ | ⟨-, e, -, rfl⟩
  · rfl
  · cases e with
    | illegalOpcode iw => rfl
    | illegalMode iw n => rfl

/-! ## The transitions of STATE (R116) -/

theorem exec_transition {i : Instr} (hs : s.status = .running) (ht : exec i s = .next t) :
    Transition .running t.status := by
  have hloop : Transition .running s.status := hs ▸ .loop
  cases exec_effect ht with
  | suspended md => exact .yield _
  | pushed ma v hv => exact .yield _
  | halted => exact .halt
  | raised i c => exact .fault c (ofStep_of_raisable (exec_raisable hs ht rfl))
  | _ => exact hloop

theorem coreStep_transition (hs : s.status = .running) (ht : coreStep s = .next t) :
    Transition .running t.status := by
  rcases coreStep_cases s t ht with ⟨i, -, hi⟩ | ⟨c, hc, rfl⟩
  · exact exec_transition hs hi
  · exact .fault c (State.ofStep_of_fetchDecode_error hc)

theorem transition_of_legal_run {st : ExecState} (h : legal .run st = true) : Transition st .running := by
  cases st with
  | ready => exact .runReady
  | interrupted r => exact .runInterrupted r
  | _ => cases h

/-- Where POKE and PEEK are legal, STATE can become Faulted by an address out of range. -/
theorem transition_of_portFault {st : ExecState} {cfg : Config} {a : Int} {c : FatalCondition}
    (hlegal : legal .pokePeek st = true) (hc : checkAddr cfg a .host = .error c) :
    Transition st (.faulted c) := by
  obtain ⟨-, rfl⟩ := (checkAddr_eq_error cfg a .host c).1 hc
  cases st with
  | ready => exact .portFaultReady a
  | interrupted r => exact .portFaultInterrupted r a
  | halted => exact .portFaultHalted a
  | _ => cases hlegal

theorem State.loadImage_transition {ws : List Int} (hs : s.status = .booting)
    (ht : s.loadImage ws = .next t) : Transition s.status t.status := by
  rw [hs]
  rcases s.loadImage_cases ws t ht with ⟨-, rfl⟩ | ⟨-, rfl⟩
  · exact .load
  · exact .sizeFault _

theorem perform_transition {x : Txn} (ht : perform x s = .next t) :
    t.status = s.status ∨ Transition s.status t.status := by
  obtain ⟨hlegal, htransact⟩ := (perform_eq_next s x t).1 ht
  cases x with
  | reset =>
    obtain rfl := hostReset_cases htransact
    exact .inr (.reset _)
  | load ws =>
    obtain ⟨-, -, hload⟩ := hostLoad_cases s ws t htransact
    exact .inr (State.loadImage_transition (legal_load hlegal) hload)
  | loadText text =>
    have hbooting := legal_load hlegal
    rcases hostLoadText_cases s text t htransact with ⟨-, rfl⟩ | ⟨ws, -, hload⟩
    · rw [hbooting]
      exact .inr .textFault
    · exact .inr (State.loadImage_transition hbooting hload)
  | poke addr v =>
    rcases hostPoke_cases s addr v t htransact with ⟨-, ⟨a, -, rfl⟩ | ⟨c, hc, rfl⟩⟩
    · exact .inl rfl
    · exact .inr (transition_of_portFault hlegal hc)
  | peek addr =>
    rcases hostPeek_cases s addr t htransact with ⟨a, -, rfl⟩ | ⟨c, hc, rfl⟩
    · exact .inl rfl
    · exact .inr (transition_of_portFault hlegal hc)
  | inPush v =>
    obtain ⟨-, rfl⟩ := hostInPush_cases s v t htransact
    exact .inl rfl
  | outPop =>
    rcases hostOutPop_cases s t htransact with ⟨-, rfl⟩ | ⟨v, q, -, rfl⟩
    · exact .inl rfl
    · exact .inl rfl
  | run =>
    obtain rfl := hostRun_cases htransact
    exact .inr (transition_of_legal_run hlegal)

/-- Settles O38: a step of the core makes a transition from Running, whatever becomes of the host's lists, and a
transaction makes one from a STATE in which it is legal. -/
theorem stateChangesOnlyByTheTable : Obligations.StateChangesOnlyByTheTable := by
  intro s t ht
  rcases step_cases s t ht with ⟨s', u, hs', hrunning, hu, rfl⟩ | ⟨r, rs, -, -, hp⟩
  · have hrunning' : s'.status = .running := by
      rcases hs' with ⟨rfl, -⟩ | ⟨r, rs, -, -, rfl⟩
      · exact hrunning
      · exact hrunning
    rw [State.deliver_status, hrunning]
    exact .inr (coreStep_transition hrunning' hu)
  · exact perform_transition (s := s.setRequests rs) hp

/-! ## pc after a step (R115) -/

theorem exec_pc_of_faulted {i : Instr} {c : FatalCondition} (hs : s.status = .running)
    (ht : exec i s = .next t) (hc : t.status = .faulted c) : t.pc = s.pc := by
  have hrunning : s.status ≠ .faulted c := by simp [hs]
  cases exec_effect ht with
  | stored i d r => exact absurd hc hrunning
  | jumped i a => exact absurd hc hrunning
  | taken md d v q hq => exact absurd hc hrunning
  | adjusted ma v => exact absurd hc hrunning
  | pushed ma v hv => cases hc
  | suspended md => rfl
  | halted => rfl
  | raised i c => rfl

theorem coreStep_pc_of_faulted {c : FatalCondition} (hs : s.status = .running)
    (ht : coreStep s = .next t) (hc : t.status = .faulted c) : t.pc = s.pc := by
  rcases coreStep_cases s t ht with ⟨i, -, hi⟩ | ⟨c', -, rfl⟩
  · exact exec_pc_of_faulted hs hi hc
  · rfl

section Completed

variable (hok : ∀ c, t.status ≠ .faulted c)

include hok

theorem State.threeOperand_pc {ma mb md : Mode} {op : Int → Int → Except FatalCondition Int}
    (ht : s.threeOperand ma mb md op = .next t) : t.pc = s.pc + 4 := by
  rcases s.threeOperand_cases ma mb md op t ht with ⟨a, b, d, r, -, -, -, -, rfl⟩ | ⟨c, rfl, -⟩
  · rfl
  · exact absurd rfl (hok c)

/-- A conditional jump goes to the value of its second operand where its test holds, else past its operands. -/
theorem State.jumpWhen_pc {ma mt : Mode} {cond : Int → Bool} (ht : s.jumpWhen ma mt cond = .next t) :
    ∃ a v, s.val 0 ma = .ok a ∧ s.val 1 mt = .ok v ∧ (cond a = true → (t.pc : Int) = v) ∧
      (cond a = false → t.pc = s.pc + 3) := by
  rcases s.jumpWhen_cases ma mt cond t ht with
    ⟨a, v, ha, hv, hcond, hnonneg, rfl⟩ | ⟨a, v, ha, hv, hcond, rfl⟩ | ⟨c, rfl, -⟩
  · exact ⟨a, v, ha, hv, fun _ => Int.toNat_of_nonneg hnonneg, fun h => by simp [hcond] at h⟩
  · exact ⟨a, v, ha, hv, fun h => by simp [hcond] at h, fun _ => rfl⟩
  · exact absurd rfl (hok c)

theorem execInput_pc {md : Mode} (ht : execInput md s = .next t) :
    (s.inq ≠ [] → t.pc = s.pc + 2) ∧ (s.inq = [] → t.pc = s.pc) := by
  rcases execInput_cases s md t ht with ⟨hq, rfl⟩ | ⟨v, q, d, hq, -, rfl⟩ | ⟨v, q, c, -, -, rfl⟩
  · exact ⟨fun h => absurd hq h, fun _ => rfl⟩
  · exact ⟨fun _ => rfl, fun h => by simp [hq] at h⟩
  · exact absurd rfl (hok c)

theorem execOutput_pc {ma : Mode} (ht : execOutput ma s = .next t) : t.pc = s.pc + 2 := by
  rcases execOutput_cases s ma t ht with ⟨a, -, rfl⟩ | ⟨c, -, rfl⟩
  · rfl
  · exact absurd rfl (hok c)

theorem execAdjustBase_pc {ma : Mode} (ht : execAdjustBase ma s = .next t) : t.pc = s.pc + 2 := by
  rcases execAdjustBase_cases s ma t ht with ⟨a, -, -, rfl⟩ | ⟨c, rfl, -⟩
  · rfl
  · exact absurd rfl (hok c)

end Completed

theorem exec_eq_threeOperand {i : Instr} {a b d : Mode}
    (hi : i ∈ [Instr.add a b d, .mul a b d, .lessThan a b d, .equals a b d]) (s : State) :
    ∃ op, exec i s = s.threeOperand a b d op := by
  simp only [List.mem_cons, List.not_mem_nil, or_false] at hi
  rcases hi with rfl | rfl | rfl | rfl
  · exact ⟨_, rfl⟩
  · exact ⟨_, rfl⟩
  · exact ⟨_, rfl⟩
  · exact ⟨_, rfl⟩

/-- Settles O39: a fatal condition leaves pc where it was, and each instruction that completes, suspends or halts
puts it where its row of R115 says. -/
theorem pcAfterAStep : Obligations.PcAfterAStep := by
  intro s t hs ht
  refine ⟨fun c hc => coreStep_pc_of_faulted hs ht hc, fun i hi hok => ?_⟩
  rw [coreStep_of_fetchDecode hi] at ht
  refine ⟨fun a b d hmem => ?threeOperand, fun d hinput => ?input, fun a houtput => ?output,
    fun ma mt hjump => ?jumpIfTrue, fun ma mt hjump => ?jumpIfFalse, fun a hadjust => ?adjustBase,
    fun hhalt => ?halt⟩
  case threeOperand =>
    obtain ⟨op, hop⟩ := exec_eq_threeOperand hmem s
    exact State.threeOperand_pc hok (hop.symm.trans ht)
  case input =>
    subst hinput
    exact execInput_pc hok ht
  case output =>
    subst houtput
    exact execOutput_pc hok ht
  case jumpIfTrue =>
    subst hjump
    obtain ⟨a, v, ha, hv, htaken, hnot⟩ := State.jumpWhen_pc hok ht
    exact ⟨a, v, ha, hv, fun h => htaken (by simp [h]), fun h => hnot (by simp [nonZero, h])⟩
  case jumpIfFalse =>
    subst hjump
    obtain ⟨a, v, ha, hv, htaken, hnot⟩ := State.jumpWhen_pc hok ht
    exact ⟨a, v, ha, hv, fun h => htaken (by simp [nonZero, h]), fun h => hnot (by simp [h])⟩
  case adjustBase =>
    subst hadjust
    exact execAdjustBase_pc hok ht
  case halt =>
    subst hhalt
    obtain rfl := execHalt_cases s t ht
    rfl

/-! ## Suspension idempotence (R120) -/

theorem State.resume_yield {r : Reason} (hs : s.status = .interrupted r) : s.resume.yield r = s := by
  cases s
  cases hs
  rfl

theorem perform_run_of_interrupted {r : Reason} (hs : s.status = .interrupted r) :
    perform .run s = .next s.resume :=
  (perform_eq_next s .run _).2 ⟨by rw [hs]; rfl, rfl⟩

theorem execInput_of_empty (md : Mode) (hq : s.inq = []) : execInput md s = .next (s.yield .needsInput) := by
  simp only [execInput, hq]

/-- The step of a resumed engine that is still blocked for input takes it back to where it was blocked. -/
theorem coreStep_resume_of_blocked {md : Mode} (hs : s.status = .interrupted .needsInput) (hq : s.inq = [])
    (hi : s.fetchDecode = .ok (.input md)) : coreStep s.resume = .next s := by
  have hi' : s.resume.fetchDecode = .ok (.input md) := hi
  calc coreStep s.resume = execInput md s.resume := coreStep_of_fetchDecode hi'
    _ = .next (s.resume.yield .needsInput) := execInput_of_empty md hq
    _ = .next s := by rw [State.resume_yield hs]

/-- Settles O45: RUN writes STATE alone, and the re-attempted `input` writes it back. -/
theorem blockedRunChangesNothing : Obligations.BlockedRunChangesNothing :=
  fun s _ hs hq hi => ⟨s.resume, perform_run_of_interrupted hs, coreStep_resume_of_blocked hs hq hi⟩

/-! ## A step of the machine, by the host's requests (R196, R117) -/

theorem State.deliver_eq (s : State) :
    s.deliver = if s.status = .running then s else s.answer (.run s.status) := by
  split
  · exact s.deliver_running ‹_›
  · exact s.deliver_stopped ‹_›

theorem step_of_no_request (hq : s.driver.requests = []) : step s = coreTurn s := by
  simp only [step, machineTurn, hq]

theorem step_of_due {r : Request} {rs : List Request} (hq : s.driver.requests = r :: rs)
    (hdue : r.due s.status = true) : step s = perform r.txn (s.setRequests rs) := by
  simp [step, machineTurn, hq, hdue]

theorem step_of_not_due {r : Request} {rs : List Request} (hq : s.driver.requests = r :: rs)
    (hdue : r.due s.status = false) : step s = coreTurn (s.setRequests (r.tick :: rs)) := by
  simp [step, machineTurn, hq, hdue]

theorem Request.due_of_stopped (r : Request) {st : ExecState} (h : st ≠ .running) : r.due st = true := by
  simp [Request.due, h]

theorem Request.not_due {r : Request} {st : ExecState} (hst : st = .running) (hr : r.delay ≠ some 0) :
    r.due st = false := by
  simp [Request.due, hst, hr]

theorem coreTurn_of_exec {i : Instr} (hs : s.status = .running) (hi : s.fetchDecode = .ok i)
    (ht : exec i s = .next t) :
    coreTurn s = .next (if t.status = .running then t else t.answer (.run t.status)) := by
  rw [coreTurn_running s t hs ((coreStep_of_fetchDecode hi).trans ht), State.deliver_eq]

/-- Settles O33: with no request and with one that is not yet due, the step is the core's turn. -/
theorem stepRunsTheDecodedInstruction : Obligations.StepRunsTheDecodedInstruction := by
  intro s i hs hpc hi
  have hfetch : s.fetchDecode = .ok i := (s.fetchDecode_eq_ok i).2 ⟨hpc, hi⟩
  refine ⟨fun hq t ht => ?_, fun x d rs hq hd t ht => ?_⟩
  · rw [step_of_no_request hq]
    exact coreTurn_of_exec hs hfetch ht
  · rw [step_of_not_due hq (Request.not_due hs hd)]
    exact coreTurn_of_exec hs hfetch ht

/-! ## Any number of RUNs of a blocked engine (R117, R120) -/

theorem Request.tick_of_undelayed {r : Request} (hr : r.delay = none) : r.tick = r := by
  cases r
  cases hr
  rfl

/-- Requests that wait for the core to stop leave a Running core its turn. -/
theorem step_running_of_undelayed (hs : s.status = .running)
    (hq : ∀ r ∈ s.driver.requests, r.delay = none) : step s = coreTurn s := by
  cases hrs : s.driver.requests with
  | nil => exact step_of_no_request hrs
  | cons r rs =>
    have hr : r.delay = none := hq r (by simp [hrs])
    rw [step_of_not_due hrs (Request.not_due hs (by simp [hr])), Request.tick_of_undelayed hr, ← hrs]
    rfl

theorem step_run_of_interrupted {r : Reason} {rs : List Request} (hs : s.status = .interrupted r)
    (hrs : s.driver.requests = { txn := .run, delay := none } :: rs) :
    step s = .next (s.setRequests rs).resume := by
  rw [step_of_due hrs (Request.due_of_stopped _ (by simp [hs]))]
  exact perform_run_of_interrupted (s := s.setRequests rs) hs

/-- The turn of a resumed engine that is still blocked for input ends the run span again, which answers the RUN. -/
theorem step_resume_of_blocked {md : Mode} (hs : s.status = .interrupted .needsInput) (hq : s.inq = [])
    (hi : s.fetchDecode = .ok (.input md)) (hrs : ∀ r ∈ s.driver.requests, r.delay = none) :
    step s.resume = .next (s.answer (.run (.interrupted .needsInput))) := by
  rw [step_running_of_undelayed (s := s.resume) rfl hrs,
    coreTurn_running s.resume s rfl (coreStep_resume_of_blocked hs hq hi),
    s.deliver_stopped (by simp [hs]), hs]

/-- Settles O46, by induction on the number of RUNs: each takes two steps, the transaction and the core's turn, and
leaves the engine blocked where it was. -/
theorem blockedRunsAreAllAnsweredNeedsInput : Obligations.BlockedRunsAreAllAnsweredNeedsInput := by
  intro n
  induction n with
  | zero =>
    intro s md hs hq hi hrs
    rw [List.replicate_zero] at hrs ⊢
    rw [List.append_nil, ← hrs]
    rfl
  | succ n ih =>
    intro s md hs hq hi hrs
    have hrun := step_run_of_interrupted hs hrs
    have hturn := step_resume_of_blocked
      (s := s.setRequests (List.replicate n { txn := .run, delay := none })) hs hq hi
      fun r hr => by rw [List.eq_of_mem_replicate hr]
    rw [List.replicate_succ, List.append_cons]
    exact (core_run_succ_of_step _ hrun).trans ((core_run_succ_of_step _ hturn).trans
      (ih _ md hs hq hi rfl))

end Sys2Proof.Machine

/-! # Proofs: arithmetic (`41_arithmetic.md`) -/

namespace Sys2Proof.Machine

open Sys2Proof

variable {s : State} {ma mb md : Mode} {op : Int → Int → Except FatalCondition Int}

/-! ## The check of a result (R134) -/

theorem fitting_of_fits {cfg : Config} {r : Int} (opcode : Nat) (h : cfg.fits r) :
    fitting cfg opcode r = .ok r := (fitting_eq_ok cfg opcode r r).2 ⟨h, rfl⟩

theorem fitting_of_not_fits {cfg : Config} {r : Int} (opcode : Nat) (h : ¬ cfg.fits r) :
    fitting cfg opcode r = .error (.arithOverflow opcode) := (fitting_eq_error cfg opcode r _).2 ⟨h, rfl⟩

/-! ## Instructions whose operands resolve (R130, R131, R133, R134) -/

/-- The completion of a three-operand instruction with its whole frame. -/
theorem State.threeOperand_completes {a b r : Int} {d : Nat} (ha : s.val 0 ma = .ok a)
    (hb : s.val 1 mb = .ok b) (hd : s.dst 2 md = .ok d) (hr : op a b = .ok r) :
    ∃ t, s.threeOperand ma mb md op = .next t ∧ StoredOnly s t d r ∧ t.pc = s.pc + 4 ∧ t.fp = s.fp ∧
      t.inq = s.inq ∧ t.outq = s.outq ∧ t.status = s.status ∧ SameSurroundings s t :=
  ⟨(s.store d r).advance 4, s.threeOperand_next ma mb md op a b r d ha hb hd hr,
    s.mem.read_write d r, rfl, rfl, rfl, rfl, rfl, rfl, rfl⟩

/-- A fatal condition of the operation itself is taken in the state the instruction began in. -/
theorem State.threeOperand_of_op_error {a b : Int} {d : Nat} {c : FatalCondition} (ha : s.val 0 ma = .ok a)
    (hb : s.val 1 mb = .ok b) (hd : s.dst 2 md = .ok d) (hop : op a b = .error c) :
    s.threeOperand ma mb md op = .next (s.raise c) := by
  simp [State.threeOperand, ha, hb, hd, hop]

theorem execAdjustBase_of_overflow {a : Int} (ha : s.val 0 ma = .ok a) (h : ¬ s.cfg.fits (s.fp + a)) :
    execAdjustBase ma s = .next (s.raise (.arithOverflow 9)) := by
  simp [execAdjustBase, ha, fitting_of_not_fits 9 h]

/-- Settles O29: the operands resolve, so what is raised is the fatal condition of the check of the result. -/
theorem arithmeticOverflowIsFatal : Obligations.ArithmeticOverflowIsFatal := by
  intro s
  refine ⟨fun ma mb md a b d ha hb hd => ⟨fun hover => ?add, fun hover => ?mul⟩,
    fun ma a ha hover => ?adjustBase⟩
  case add => exact State.threeOperand_of_op_error ha hb hd (fitting_of_not_fits 1 hover)
  case mul => exact State.threeOperand_of_op_error ha hb hd (fitting_of_not_fits 2 hover)
  case adjustBase => exact execAdjustBase_of_overflow ha hover

/-- Settles O17: the sum fits, so it is what the three-operand frame writes. -/
theorem addCompletes : Obligations.AddCompletes :=
  fun _ _ _ _ _ _ _ ha hb hd hfits => State.threeOperand_completes ha hb hd (fitting_of_fits 1 hfits)

/-- Settles O18: the product fits, so it is what the three-operand frame writes. -/
theorem mulCompletes : Obligations.MulCompletes :=
  fun _ _ _ _ _ _ _ ha hb hd hfits => State.threeOperand_completes ha hb hd (fitting_of_fits 2 hfits)

end Sys2Proof.Machine

/-! # Proofs: input and output (`42_io.md`) -/

namespace Sys2Proof.Machine

open Sys2Proof

variable {s : State}

/-- A destination that raises is met after the look at INQ, and the state the step began in keeps the value. -/
theorem execInput_of_dst_error {md : Mode} {c : FatalCondition} (hq : s.inq ≠ [])
    (hd : s.dst 0 md = .error c) : execInput md s = .next (s.raise c) := by
  obtain ⟨v, q, hvq⟩ := List.exists_cons_of_ne_nil hq
  simp only [execInput, hvq, hd, error_bind, State.commit_error]

theorem execOutput_of_val {ma : Mode} {a : Int} (ha : s.val 0 ma = .ok a) :
    execOutput ma s = .next (((s.pushOut a).advance 2).yield .producedOutput) := by
  simp only [execOutput, ha, ok_bind, pure_eq_ok, State.commit_ok]

/-- Settles O21: the state `execInput_next` names is a store of the oldest value, and its frame is read off. -/
theorem inputCompletes : Obligations.InputCompletes :=
  fun _ s v _ d hq hd =>
    ⟨_, execInput_next hq hd, s.mem.read_write d v, rfl, rfl, rfl, rfl, rfl, rfl, rfl⟩

/-- Settles O22: INQ is looked at before the operand, and a yield sets STATE alone. -/
theorem inputSuspendsOnAnEmptyQueue : Obligations.InputSuspendsOnAnEmptyQueue :=
  fun md _ hq => execInput_of_empty md hq

/-- Settles O23: the value resolves, so the step appends it, advances and yields. -/
theorem outputCompletes : Obligations.OutputCompletes :=
  fun _ _ _ ha => execOutput_of_val ha

/-- Settles O31: the fatal condition of the destination is taken in the state the step began in. -/
theorem inputFaultLeavesTheValueQueued : Obligations.InputFaultLeavesTheValueQueued :=
  fun _ _ _ hq hd => execInput_of_dst_error hq hd

end Sys2Proof.Machine

/-! # Proofs: jumps (`43_jumps.md`) -/

namespace Sys2Proof.Machine

open Sys2Proof

section JumpWhen

variable {s : State} {ma mt : Mode} {cond : Int → Bool} {a t : Int}

theorem jumpTarget_of_nonneg (h : 0 ≤ t) : jumpTarget t = .ok t.toNat := by
  simp [jumpTarget, not_lt.2 h]

/-- A conditional jump whose test holds goes to the value of its target. -/
theorem State.jumpWhen_of_taken (ha : s.val 0 ma = .ok a) (ht : s.val 1 mt = .ok t) (hcond : cond a = true)
    (hnonneg : 0 ≤ t) : s.jumpWhen ma mt cond = .next (s.jump t.toNat) := by
  simp [State.jumpWhen, ha, ht, hcond, jumpTarget_of_nonneg hnonneg]

/-- A conditional jump whose test fails goes past its operands, whatever the sign of its target. -/
theorem State.jumpWhen_of_not_taken (ha : s.val 0 ma = .ok a) (ht : s.val 1 mt = .ok t)
    (hcond : cond a = false) : s.jumpWhen ma mt cond = .next (s.advance 3) := by
  simp [State.jumpWhen, ha, ht, hcond]

end JumpWhen

/-- Settles O24: the test of `jump-if-true` is `nonZero`, which holds of every word but 0. -/
theorem jumpIfTrueCompletes : Obligations.JumpIfTrueCompletes := by
  refine fun ma mt s a t ha ht => ⟨fun hne hnonneg => ?taken, fun hzero => ?notTaken⟩
  case taken => exact State.jumpWhen_of_taken ha ht ((nonZero_iff a).2 hne) hnonneg
  case notTaken => exact State.jumpWhen_of_not_taken ha ht (by simp [nonZero, hzero])

/-- Settles O25: the test of `jump-if-false` is the negation of `nonZero`, which holds of 0 alone. -/
theorem jumpIfFalseCompletes : Obligations.JumpIfFalseCompletes := by
  refine fun ma mt s a t ha ht => ⟨fun hzero hnonneg => ?taken, fun hne => ?notTaken⟩
  case taken => exact State.jumpWhen_of_taken ha ht (by simp [nonZero, hzero]) hnonneg
  case notTaken => exact State.jumpWhen_of_not_taken ha ht (by simp [nonZero, hne])

end Sys2Proof.Machine

/-! # Proofs: comparisons (`44_compare.md`) -/

namespace Sys2Proof.Machine

open Sys2Proof

/-- Settles O19: the comparison has no fatal condition of its own, so its 1 or 0 is what the three-operand frame
writes. -/
theorem lessThanCompletes : Obligations.LessThanCompletes :=
  fun _ _ _ _ a b _ ha hb hd =>
    State.threeOperand_completes ha hb hd (congrArg Except.ok (lessWord_eq a b))

/-- Settles O20: the comparison has no fatal condition of its own, so its 1 or 0 is what the three-operand frame
writes. -/
theorem equalsCompletes : Obligations.EqualsCompletes :=
  fun _ _ _ _ a b _ ha hb hd =>
    State.threeOperand_completes ha hb hd (congrArg Except.ok (equalWord_eq a b))

end Sys2Proof.Machine

/-! # Proofs: `adjust-base` (`45_adjust_base.md`) -/

namespace Sys2Proof.Machine

open Sys2Proof

theorem execAdjustBase_of_fits {s : State} {ma : Mode} {a : Int} (ha : s.val 0 ma = .ok a)
    (hfits : s.cfg.fits (s.fp + a)) :
    execAdjustBase ma s = .next ((s.setFp (s.fp + a)).advance 2) := by
  simp only [execAdjustBase, ha, fitting_of_fits 9 hfits, ok_bind, pure_eq_ok, State.commit_ok]

/-- Settles O26: the operand resolves and the sum passes its check, so the step sets fp and advances. -/
theorem adjustBaseCompletes : Obligations.AdjustBaseCompletes :=
  fun _ _ _ ha hfits => execAdjustBase_of_fits ha hfits

end Sys2Proof.Machine

/-! # Proofs: `halt` (`46_halt.md`) -/

namespace Sys2Proof.Machine

open Sys2Proof

/-- Settles O27: the step of `halt` is one `setStatus`, which keeps pc (decision D27) with every other field. -/
theorem haltCompletes : Obligations.HaltCompletes :=
  fun s => show exec .halt s = .next (s.setStatus .halted) from rfl

end Sys2Proof.Machine

/-! # Proofs: the host's transactions (`47_host_interface.md`) -/

namespace Sys2Proof.Machine

open Sys2Proof

variable {s t : State}

/-! ## Legality (R195) -/

theorem perform_of_legal {x : Txn} (h : legal x.kind s.status = true) : perform x s = transact x s :=
  if_pos h

theorem perform_of_illegal {x : Txn} (h : legal x.kind s.status = false) :
    perform x s = .refused (.transactionRefused x s.status) :=
  if_neg (ne_true_of_eq_false h)

theorem State.commit_ne_refused (s : State) (r : Except FatalCondition State) (w : Refusal) :
    s.commit r ≠ .refused w := by
  obtain ⟨u, hu⟩ := s.commit_next r
  rw [hu]
  exact nofun

/-- A port refuses a value for not being a word, never by the table. -/
theorem State.presented_ne_transactionRefused {vs : List Int} {r : Result} {y : Txn} {st : ExecState}
    (h : r ≠ .refused (.transactionRefused y st)) :
    s.presented vs r ≠ .refused (.transactionRefused y st) := by
  unfold State.presented
  split
  · exact nofun
  · exact h

/-- The effect of a transaction never answers the refusal of the table. -/
theorem transact_ne_transactionRefused (x y : Txn) (s : State) (st : ExecState) :
    transact x s ≠ .refused (.transactionRefused y st) := by
  cases x with
  | reset => exact nofun
  | load ws =>
    cases ws with
    | nil => exact nofun
    | cons w ws => exact State.presented_ne_transactionRefused (s.commit_ne_refused _ _)
  | loadText text =>
    simp only [transact, hostLoadText]
    split
    · exact nofun
    · exact s.commit_ne_refused _ _
  | poke addr v => exact State.presented_ne_transactionRefused (s.commit_ne_refused _ _)
  | peek addr => exact s.commit_ne_refused _ _
  | inPush v => exact State.presented_ne_transactionRefused nofun
  | outPop =>
    simp only [transact, hostOutPop]
    split
    · exact nofun
    · exact nofun
  | run => exact nofun

theorem perform_eq_transactionRefused (x : Txn) (s : State) :
    perform x s = .refused (.transactionRefused x s.status) ↔ legal x.kind s.status = false := by
  refine ⟨fun h => ?_, perform_of_illegal⟩
  by_contra hlegal
  rw [perform_of_legal (eq_true_of_ne_false hlegal)] at h
  exact transact_ne_transactionRefused x x s s.status h

/-! The rows of the table, by the states in which each refuses. -/

theorem legal_load_eq_false (st : ExecState) : legal .load st = false ↔ st ≠ .booting := by
  cases st <;> simp [legal]

theorem legal_pokePeek_eq_false (st : ExecState) :
    legal .pokePeek st = false ↔ st = .booting ∨ st = .running ∨ ∃ c, st = .faulted c := by
  cases st <;> simp [legal]

theorem legal_inPush_eq_false (st : ExecState) : legal .inPush st = false ↔ ∃ c, st = .faulted c := by
  cases st <;> simp [legal]

theorem legal_outPop_eq_false (st : ExecState) : legal .outPop st = false ↔ ∃ c, st = .faulted c := by
  cases st <;> simp [legal]

theorem legal_run_eq_false (st : ExecState) :
    legal .run st = false ↔ st = .booting ∨ st = .running ∨ st = .halted ∨ ∃ c, st = .faulted c := by
  cases st <;> simp [legal]

/-- Settles O58: a transaction is refused by the table exactly where its row says no, since no effect answers that
refusal. -/
theorem transactionsRefusedByTheTable : Obligations.TransactionsRefusedByTheTable := by
  intro s
  have hload := legal_load_eq_false s.status
  have hport := legal_pokePeek_eq_false s.status
  refine ⟨?reset, fun ws => ?load, fun text => ?loadText, fun a v => ?poke, fun a => ?peek,
    fun v => ?inPush, ?outPop, ?run⟩
  case reset => rw [perform_reset]; exact nofun
  case load => exact (perform_eq_transactionRefused _ s).trans hload
  case loadText => exact (perform_eq_transactionRefused _ s).trans hload
  case poke => exact (perform_eq_transactionRefused _ s).trans hport
  case peek => exact (perform_eq_transactionRefused _ s).trans hport
  case inPush => exact (perform_eq_transactionRefused _ s).trans (legal_inPush_eq_false _)
  case outPop => exact (perform_eq_transactionRefused _ s).trans (legal_outPop_eq_false _)
  case run => exact (perform_eq_transactionRefused _ s).trans (legal_run_eq_false _)

theorem legal_pokePeek_of_stopped {st : ExecState}
    (h : st = .ready ∨ (∃ r, st = .interrupted r) ∨ st = .halted) : legal .pokePeek st = true := by
  rcases h with rfl | ⟨r, rfl⟩ | rfl
  · rfl
  · rfl
  · rfl

theorem legal_inPush_of_unfaulted {st : ExecState} (h : ∀ c, st ≠ .faulted c) : legal .inPush st = true :=
  eq_true_of_ne_false fun hfalse => not_exists.2 h ((legal_inPush_eq_false st).1 hfalse)

theorem legal_outPop_of_unfaulted {st : ExecState} (h : ∀ c, st ≠ .faulted c) : legal .outPop st = true :=
  eq_true_of_ne_false fun hfalse => not_exists.2 h ((legal_outPop_eq_false st).1 hfalse)

/-! ## LOAD (R182) -/

theorem State.loadImage_of_tooLong {ws : List Int} (h : s.cfg.memCap < ws.length) :
    s.loadImage ws = .next (s.raise (.addressFault s.cfg.memCap .host)) := by
  rw [State.loadImage, if_pos h, State.commit_error]

/-- Settles O49: the port lets words through, and the length of the image decides between the write and the fatal
condition. -/
theorem loadOutcomes : Obligations.LoadOutcomes := by
  intro s ws hs
  rw [perform_load_of_booting hs]
  refine ⟨fun hwf => ?written, fun hne hfits hlong => ?tooLong, fun hempty => ?empty⟩
  case written =>
    obtain ⟨hne, hfits, hlength⟩ := hwf
    refine ⟨_, (hostLoad_eq_loadImage hne hfits).trans (State.loadImage_next hlength), fun x => ?_,
      rfl, rfl, rfl, rfl, rfl, rfl, rfl⟩
    simp [Memory.read_writeAll]
  case tooLong => exact (hostLoad_eq_loadImage hne hfits).trans (State.loadImage_of_tooLong hlong)
  case empty =>
    subst hempty
    rfl

/-! ## POKE and PEEK (R184, R185) -/

theorem checkAddr_of_bounds {cfg : Config} {a : Int} (k : AccessKind) (hnonneg : 0 ≤ a)
    (hlt : a < (cfg.memCap : Int)) : checkAddr cfg a k = .ok a.toNat :=
  (checkAddr_eq_ok cfg a k _).2 ⟨(Int.toNat_of_nonneg hnonneg).symm, by omega⟩

theorem State.presented_of_fits {v : Int} (r : Result) (h : s.cfg.fits v) : s.presented [v] r = r := by
  simp only [State.presented, (notWord_eq_none s.cfg [v]).2 (List.forall_mem_singleton.2 h)]

theorem hostPoke_of_inRange {addr v : Int} {a : Nat} (hv : s.cfg.fits v)
    (ha : checkAddr s.cfg addr .host = .ok a) : hostPoke addr v s = .next (s.store a v) := by
  rw [hostPoke, State.presented_of_fits _ hv, ha, ok_bind, pure_eq_ok, State.commit_ok]

theorem hostPoke_of_fault {addr v : Int} {c : FatalCondition} (hv : s.cfg.fits v)
    (hc : checkAddr s.cfg addr .host = .error c) : hostPoke addr v s = .next (s.raise c) := by
  rw [hostPoke, State.presented_of_fits _ hv, hc, error_bind, State.commit_error]

theorem hostPeek_of_inRange {addr : Int} {a : Nat} (ha : checkAddr s.cfg addr .host = .ok a) :
    hostPeek addr s = .next (s.answer (.peek (s.mem.read a))) := by
  rw [hostPeek, ha, ok_bind, pure_eq_ok, State.commit_ok]

theorem hostPeek_of_fault {addr : Int} {c : FatalCondition}
    (hc : checkAddr s.cfg addr .host = .error c) : hostPeek addr s = .next (s.raise c) := by
  rw [hostPeek, hc, error_bind, State.commit_error]

/-- Settles O53: the range check decides between one store and the fatal condition. -/
theorem pokeOutcomes : Obligations.PokeOutcomes := by
  intro s addr v hstopped hfits
  rw [perform_of_legal (x := .poke addr v) (legal_pokePeek_of_stopped hstopped)]
  refine ⟨fun hnonneg hlt => ?inRange, fun hout => ?outOfRange⟩
  case inRange =>
    exact ⟨_, hostPoke_of_inRange hfits (checkAddr_of_bounds _ hnonneg hlt), s.mem.read_write _ v,
      rfl, rfl, rfl, rfl, rfl, rfl, rfl⟩
  case outOfRange => exact hostPoke_of_fault hfits (checkAddr_outOfRange s.cfg addr .host hout)

/-- Settles O54: the range check decides between the answer and the fatal condition. -/
theorem peekOutcomes : Obligations.PeekOutcomes := by
  intro s addr hstopped
  rw [perform_of_legal (x := .peek addr) (legal_pokePeek_of_stopped hstopped)]
  refine ⟨fun hnonneg hlt => ?inRange, fun hout => ?outOfRange⟩
  case inRange => exact hostPeek_of_inRange (checkAddr_of_bounds _ hnonneg hlt)
  case outOfRange => exact hostPeek_of_fault (checkAddr_outOfRange s.cfg addr .host hout)

/-! ## The queues' ports (R187, R188) -/

theorem perform_inPush_of_unfaulted {v : Int} (hs : ∀ c, s.status ≠ .faulted c) (hv : s.cfg.fits v) :
    perform (.inPush v) s = .next (s.pushIn v) :=
  (perform_of_legal (x := .inPush v) (legal_inPush_of_unfaulted hs)).trans (State.presented_of_fits _ hv)

theorem perform_outPop_of_empty (hs : ∀ c, s.status ≠ .faulted c) (hq : s.outq = []) :
    perform .outPop s = .next (s.answer (.outPop none)) := by
  rw [perform_of_legal (x := .outPop) (legal_outPop_of_unfaulted hs)]
  simp only [transact, hostOutPop, hq]

theorem perform_outPop_of_cons {v : Int} {q : List Int} (hs : ∀ c, s.status ≠ .faulted c)
    (hq : s.outq = v :: q) :
    perform .outPop s = .next ((s.setOutq q).answer (.outPop (some v))) := by
  rw [perform_of_legal (x := .outPop) (legal_outPop_of_unfaulted hs)]
  simp only [transact, hostOutPop, hq]

/-- Settles O55: IN_PUSH is legal in every STATE but Faulted, and its effect is one `pushIn`. -/
theorem inPushAppendsToInq : Obligations.InPushAppendsToInq :=
  fun s _ hfits => ⟨fun hs => perform_inPush_of_unfaulted hs hfits,
    fun c hc => perform_of_illegal ((legal_inPush_eq_false s.status).2 ⟨c, hc⟩)⟩

/-- Settles O56: OUT_POP is legal in every STATE but Faulted, and its answer is by the shape of OUTQ. -/
theorem outPopTakesTheOldest : Obligations.OutPopTakesTheOldest :=
  fun _ hs => ⟨fun _ _ hq => perform_outPop_of_cons hs hq, fun hq => perform_outPop_of_empty hs hq⟩

/-! ## RUN (R190, `60_exceptions.md` R210) -/

theorem perform_run_of_ready (hs : s.status = .ready) : perform .run s = .next s.resume :=
  perform_of_legal (x := .run) (by rw [hs]; rfl)

/-- Settles O57: in both states RUN is legal, and it is one `resume`. -/
theorem runResumesTheEngine : Obligations.RunResumesTheEngine := by
  rintro s (hs | ⟨r, hs⟩)
  · exact perform_run_of_ready hs
  · exact perform_run_of_interrupted hs

/-! ## The interleaving of host and core (R196) -/

theorem Request.due_of_no_delay {r : Request} (st : ExecState) (h : r.delay = some 0) : r.due st = true := by
  simp [Request.due, h]

/-- Settles O34: either of the two premises makes the request due. -/
theorem stepPerformsTheDueRequest : Obligations.StepPerformsTheDueRequest := by
  intro s x d rs hq hdue
  rcases hdue with hstopped | hdelay
  · exact step_of_due hq (Request.due_of_stopped _ hstopped)
  · exact step_of_due hq (Request.due_of_no_delay _ hdelay)

/-- A fatal condition, and what a step computed, are committed the same with a value more in INQ. -/
theorem State.commit_pushIn {r : Except FatalCondition State} (ht : s.commit r = .next t) (v : Int) :
    (s.pushIn v).commit ((·.pushIn v) <$> r) = .next (t.pushIn v) := by
  rcases s.commit_cases r t ht with rfl | ⟨c, rfl, rfl⟩
  · rfl
  · rfl

theorem State.threeOperand_pushIn {ma mb md : Mode} {op : Int → Int → Except FatalCondition Int}
    (ht : s.threeOperand ma mb md op = .next t) (v : Int) :
    (s.pushIn v).threeOperand ma mb md op = .next (t.pushIn v) := by
  have h := State.commit_pushIn ht v
  simp only [map_bind, map_pure] at h
  exact h

theorem State.jumpWhen_pushIn {ma mt : Mode} {cond : Int → Bool} (ht : s.jumpWhen ma mt cond = .next t)
    (v : Int) : (s.pushIn v).jumpWhen ma mt cond = .next (t.pushIn v) := by
  have h := State.commit_pushIn ht v
  simp only [map_bind, map_pure, apply_ite] at h
  exact h

theorem execOutput_pushIn {ma : Mode} (ht : execOutput ma s = .next t) (v : Int) :
    execOutput ma (s.pushIn v) = .next (t.pushIn v) := by
  have h := State.commit_pushIn ht v
  simp only [map_bind, map_pure] at h
  exact h

theorem execAdjustBase_pushIn {ma : Mode} (ht : execAdjustBase ma s = .next t) (v : Int) :
    execAdjustBase ma (s.pushIn v) = .next (t.pushIn v) := by
  have h := State.commit_pushIn ht v
  simp only [map_bind, map_pure] at h
  exact h

/-- The oldest value, which `input` takes, is the same with a value more behind it. -/
theorem execInput_pushIn {md : Mode} (hq : s.inq ≠ []) (ht : execInput md s = .next t) (v : Int) :
    execInput md (s.pushIn v) = .next (t.pushIn v) := by
  have hdst : (s.pushIn v).dst 0 md = s.dst 0 md := rfl
  rcases execInput_cases s md t ht with ⟨hempty, -⟩ | ⟨w, q, d, hwq, hd, rfl⟩ | ⟨w, q, c, -, hd, rfl⟩
  · exact absurd hempty hq
  · have hwq' : (s.pushIn v).inq = w :: (q ++ [v]) := by simp [hwq]
    exact execInput_next hwq' (hdst.trans hd)
  · exact execInput_of_dst_error (by simp) (hdst.trans hd)

theorem execHalt_pushIn (ht : execHalt s = .next t) (v : Int) :
    execHalt (s.pushIn v) = .next (t.pushIn v) := by
  obtain rfl := execHalt_cases s t ht
  rfl

theorem exec_pushIn {i : Instr} (hq : s.inq ≠ []) (ht : exec i s = .next t) (v : Int) :
    exec i (s.pushIn v) = .next (t.pushIn v) := by
  cases i with
  | add a b d => exact State.threeOperand_pushIn ht v
  | mul a b d => exact State.threeOperand_pushIn ht v
  | input d => exact execInput_pushIn hq ht v
  | output a => exact execOutput_pushIn ht v
  | jumpIfTrue a t => exact State.jumpWhen_pushIn ht v
  | jumpIfFalse a t => exact State.jumpWhen_pushIn ht v
  | lessThan a b d => exact State.threeOperand_pushIn ht v
  | equals a b d => exact State.threeOperand_pushIn ht v
  | adjustBase a => exact execAdjustBase_pushIn ht v
  | halt => exact execHalt_pushIn ht v

/-- Settles O47: fetch and decode do not read INQ, and only `input` does, which takes its oldest value. -/
theorem inPushCommutesWithAStep : Obligations.InPushCommutesWithAStep := by
  intro s t v hq ht
  have hfetch : (s.pushIn v).fetchDecode = s.fetchDecode := rfl
  rcases coreStep_cases s t ht with ⟨i, hi, hexec⟩ | ⟨c, hc, rfl⟩
  · exact (coreStep_of_fetchDecode (hfetch.trans hi)).trans (exec_pushIn hq hexec v)
  · exact coreStep_of_fetchDecode_error (hfetch.trans hc)

/-! ## The hand-off (R198) -/

theorem System.transact_next {k : Nat} {x : Txn} {sys : System} (hs : sys[k]? = some s)
    (ht : perform x s = .next t) : System.transact k x sys = some (sys.set k t) :=
  (System.transact_eq_some k x sys _).2 ⟨s, t, hs, ht, rfl⟩

/-- Settles O59: a hand-off is OUT_POP on the first Computer, then IN_PUSH on the second as OUT_POP left it. -/
theorem handOffMovesTheOldestValue : Obligations.HandOffMovesTheOldestValue := by
  intro i j sys a ha hsender
  refine ⟨fun v q b hq hb hfits hreceiver => ?moved, fun hempty => ?empty⟩
  case moved =>
    have hpop := System.transact_next ha (perform_outPop_of_cons hsender hq)
    have hpush := System.transact_next hb (perform_inPush_of_unfaulted hreceiver hfits)
    exact (System.handOff_cons i j sys a v q ha hq _).2 ⟨_, hpop, hpush⟩
  case empty =>
    rw [System.handOff_empty i j sys a ha hempty]
    exact System.transact_next ha (perform_outPop_of_empty hsender hempty)

end Sys2Proof.Machine

/-! # Proofs: fatal conditions (`60_exceptions.md`) -/

namespace Sys2Proof.Machine

open Sys2Proof

/-! ## The order of fatal conditions within an instruction (R203, points 5 and 6) -/

section Order

variable {s : State} {c : FatalCondition} {ma mb md mt : Mode} {a b v : Int}
  {op : Int → Int → Except FatalCondition Int} {cond : Int → Bool}

theorem State.threeOperand_of_first_error (hc : s.val 0 ma = .error c) :
    s.threeOperand ma mb md op = .next (s.raise c) := by
  rw [State.threeOperand, hc, error_bind, State.commit_error]

theorem State.threeOperand_of_second_error (ha : s.val 0 ma = .ok a) (hc : s.val 1 mb = .error c) :
    s.threeOperand ma mb md op = .next (s.raise c) := by
  rw [State.threeOperand, ha, ok_bind, hc, error_bind, State.commit_error]

theorem State.threeOperand_of_dst_error (ha : s.val 0 ma = .ok a) (hb : s.val 1 mb = .ok b)
    (hc : s.dst 2 md = .error c) : s.threeOperand ma mb md op = .next (s.raise c) := by
  rw [State.threeOperand, ha, ok_bind, hb, ok_bind, hc, error_bind, State.commit_error]

theorem State.jumpWhen_of_first_error (hc : s.val 0 ma = .error c) :
    s.jumpWhen ma mt cond = .next (s.raise c) := by
  rw [State.jumpWhen, hc, error_bind, State.commit_error]

/-- The target operand is read whether or not the jump would be taken (decision D32). -/
theorem State.jumpWhen_of_target_error (ha : s.val 0 ma = .ok a) (hc : s.val 1 mt = .error c) :
    s.jumpWhen ma mt cond = .next (s.raise c) := by
  rw [State.jumpWhen, ha, ok_bind, hc, error_bind, State.commit_error]

/-- A jump taken to a negative target raises itself, since pc is unsigned (decision D6). -/
theorem State.jumpWhen_of_negative_target (ha : s.val 0 ma = .ok a) (hv : s.val 1 mt = .ok v)
    (hcond : cond a = true) (hneg : v < 0) :
    s.jumpWhen ma mt cond = .next (s.raise (.addressFault v .jumpTarget)) := by
  simp [State.jumpWhen, ha, hv, hcond, jumpTarget, hneg]

theorem execOutput_of_val_error (hc : s.val 0 ma = .error c) : execOutput ma s = .next (s.raise c) := by
  rw [execOutput, hc, error_bind, State.commit_error]

theorem execAdjustBase_of_val_error (hc : s.val 0 ma = .error c) :
    execAdjustBase ma s = .next (s.raise c) := by
  rw [execAdjustBase, hc, error_bind, State.commit_error]

end Order

theorem exec_eq_jumpWhen {i : Instr} {a t : Mode} (hi : i ∈ [Instr.jumpIfTrue a t, .jumpIfFalse a t])
    (s : State) : ∃ cond, exec i s = s.jumpWhen a t cond := by
  simp only [List.mem_cons, List.not_mem_nil, or_false] at hi
  rcases hi with rfl | rfl
  · exact ⟨_, rfl⟩
  · exact ⟨_, rfl⟩

/-- Settles O28: the four instructions share one frame, which stops at the first operand that raises. -/
theorem threeOperandFaultOrder : Obligations.ThreeOperandFaultOrder := by
  intro ma mb md s i hi
  obtain ⟨op, hop⟩ := exec_eq_threeOperand hi s
  rw [hop]
  exact ⟨fun _ => State.threeOperand_of_first_error, fun _ _ => State.threeOperand_of_second_error,
    fun _ _ _ => State.threeOperand_of_dst_error⟩

/-- Settles O30: the first source is read first, the target of a jump next, and a target that is taken is checked
last. -/
theorem sourceOnlyFaultOrder : Obligations.SourceOnlyFaultOrder := by
  intro ma mt s
  refine ⟨fun i c hi hc => ?first, fun i a c hi ha hc => ?target, fun a t ha ht hneg =>
    ⟨fun hne => ?ifTrue, fun hzero => ?ifFalse⟩⟩
  case first =>
    rcases List.mem_cons.1 hi with rfl | hi
    · exact execOutput_of_val_error hc
    · rcases List.mem_cons.1 hi with rfl | hi
      · exact execAdjustBase_of_val_error hc
      · obtain ⟨cond, hjump⟩ := exec_eq_jumpWhen hi s
        exact hjump.trans (State.jumpWhen_of_first_error hc)
  case target =>
    obtain ⟨cond, hjump⟩ := exec_eq_jumpWhen hi s
    exact hjump.trans (State.jumpWhen_of_target_error ha hc)
  case ifTrue => exact State.jumpWhen_of_negative_target ha ht ((nonZero_iff a).2 hne) hneg
  case ifFalse => exact State.jumpWhen_of_negative_target ha ht (by simp [nonZero, hzero]) hneg

/-! ## What a step ends Faulted with (R202, R205) -/

variable {s t : State} {c : FatalCondition}

/-- An instruction of a Running core that ends Faulted has done nothing else. -/
theorem exec_eq_raise_of_faulted {i : Instr} (hs : s.status = .running) (ht : exec i s = .next t)
    (hc : t.status = .faulted c) : t = s.raise c := by
  have hrunning : s.status ≠ .faulted c := by simp [hs]
  cases exec_effect ht with
  | stored i d r => exact absurd hc hrunning
  | jumped i a => exact absurd hc hrunning
  | taken md d v q hq => exact absurd hc hrunning
  | adjusted ma v => exact absurd hc hrunning
  | raised i c' => cases hc; rfl
  | _ => cases hc

theorem coreStep_eq_raise_of_faulted (hs : s.status = .running) (ht : coreStep s = .next t)
    (hc : t.status = .faulted c) : t = s.raise c := by
  rcases coreStep_cases s t ht with ⟨i, -, hi⟩ | ⟨c', -, rfl⟩
  · exact exec_eq_raise_of_faulted hs hi hc
  · cases hc
    rfl

/-- The decoder rejects the word it was given. -/
theorem decodeWord_error_cases {iw : Int} {e : DecodeError} (h : decodeWord iw = .error e) :
    e = .illegalOpcode iw ∨ ∃ k, e = .illegalMode iw k := by
  cases e with
  | illegalOpcode w =>
    obtain ⟨rfl, -⟩ := (illegalOpcodeWords iw w).1 h
    exact .inl rfl
  | illegalMode w k =>
    obtain ⟨rfl, -⟩ := (reservedModeDigits iw w k).1 h
    exact .inr ⟨k, rfl⟩

theorem State.fetchDecode_error_cases (h : s.fetchDecode = .error c) :
    c = .addressFault (s.pc : Int) .fetch ∨ c = .illegalOpcode (s.mem.read s.pc) ∨
      ∃ k, c = .illegalMode (s.mem.read s.pc) k := by
  rcases (s.fetchDecode_eq_error c).1 h with ⟨-, hfetch⟩ | ⟨-, e, he, rfl⟩
  · exact .inl hfetch
  · rcases decodeWord_error_cases he with rfl | ⟨k, rfl⟩
    · exact .inr (.inl rfl)
    · exact .inr (.inr ⟨k, rfl⟩)

theorem coreStep_cause (hs : s.status = .running) (ht : coreStep s = .next t)
    (hc : t.status = .faulted c) :
    (∃ i, s.fetchDecode = .ok i ∧ raisable i c = true) ∨ c = .addressFault (s.pc : Int) .fetch ∨
      c = .illegalOpcode (s.mem.read s.pc) ∨ ∃ k, c = .illegalMode (s.mem.read s.pc) k := by
  rcases coreStep_cases s t ht with ⟨i, hi, hexec⟩ | ⟨c', hc', rfl⟩
  · exact .inl ⟨i, hi, exec_raisable hs hexec hc⟩
  · cases hc
    exact .inr (State.fetchDecode_error_cases hc')

/-! ## What a transaction ends Faulted with (R202, R205) -/

/-- What a transaction can raise in `s`: the host's rows of the table of R202. -/
def HostCause (s : State) (x : Txn) (c : FatalCondition) : Prop :=
  (∃ text, x = .loadText text ∧ (c = .loadFormat ∨ c = .addressFault s.cfg.memCap .host)) ∨
  (∃ ws, x = .load ws ∧ c = .addressFault s.cfg.memCap .host) ∨
  (∃ a v, x = .poke a v ∧ c = .addressFault a .host) ∨ (∃ a, x = .peek a ∧ c = .addressFault a .host)

/-- Of all transactions only RESET is legal in Faulted. -/
theorem legal_faulted {x : Txn} (c : FatalCondition) (hx : x ≠ .reset) : legal x.kind (.faulted c) = false := by
  cases x with
  | reset => exact absurd rfl hx
  | _ => rfl

theorem State.status_ne_faulted_of_legal {x : Txn} (hx : x ≠ .reset) (h : legal x.kind s.status = true) :
    s.status ≠ .faulted c := by
  intro hs
  rw [hs, legal_faulted c hx] at h
  cases h

theorem State.loadImage_faulted {ws : List Int} (ht : s.loadImage ws = .next t)
    (hc : t.status = .faulted c) : t = s.raise c ∧ c = .addressFault s.cfg.memCap .host := by
  rcases s.loadImage_cases ws t ht with ⟨-, rfl⟩ | ⟨-, rfl⟩
  · cases hc
  · cases hc
    exact ⟨rfl, rfl⟩

theorem checkAddr_host_cause {cfg : Config} {a : Int} (h : checkAddr cfg a .host = .error c) :
    c = .addressFault a .host :=
  ((checkAddr_eq_error cfg a .host c).1 h).2

/-- A transaction that ends Faulted has done nothing else, and its cause is one of its row. -/
theorem perform_faulted {x : Txn} (ht : perform x s = .next t) (hc : t.status = .faulted c) :
    t = s.raise c ∧ HostCause s x c := by
  obtain ⟨hlegal, htransact⟩ := (perform_eq_next s x t).1 ht
  have hunfaulted : x ≠ .reset → s.status ≠ .faulted c :=
    fun hx => State.status_ne_faulted_of_legal hx hlegal
  cases x with
  | reset =>
    obtain rfl := hostReset_cases htransact
    cases hc
  | load ws =>
    obtain ⟨-, -, hload⟩ := hostLoad_cases s ws t htransact
    obtain ⟨hraise, hcause⟩ := State.loadImage_faulted hload hc
    exact ⟨hraise, .inr (.inl ⟨ws, rfl, hcause⟩)⟩
  | loadText text =>
    rcases hostLoadText_cases s text t htransact with ⟨-, rfl⟩ | ⟨ws, -, hload⟩
    · cases hc
      exact ⟨rfl, .inl ⟨text, rfl, .inl rfl⟩⟩
    · obtain ⟨hraise, hcause⟩ := State.loadImage_faulted hload hc
      exact ⟨hraise, .inl ⟨text, rfl, .inr hcause⟩⟩
  | poke addr v =>
    rcases hostPoke_cases s addr v t htransact with ⟨-, ⟨a, -, rfl⟩ | ⟨c', hc', rfl⟩⟩
    · exact absurd hc (hunfaulted nofun)
    · cases hc
      exact ⟨rfl, .inr (.inr (.inl ⟨addr, v, rfl, checkAddr_host_cause hc'⟩))⟩
  | peek addr =>
    rcases hostPeek_cases s addr t htransact with ⟨a, -, rfl⟩ | ⟨c', hc', rfl⟩
    · exact absurd hc (hunfaulted nofun)
    · cases hc
      exact ⟨rfl, .inr (.inr (.inr ⟨addr, rfl, checkAddr_host_cause hc'⟩))⟩
  | inPush v =>
    obtain ⟨-, rfl⟩ := hostInPush_cases s v t htransact
    exact absurd hc (hunfaulted nofun)
  | outPop =>
    rcases hostOutPop_cases s t htransact with ⟨-, rfl⟩ | ⟨v, q, -, rfl⟩
    · exact absurd hc (hunfaulted nofun)
    · exact absurd hc (hunfaulted nofun)
  | run =>
    obtain rfl := hostRun_cases htransact
    cases hc

/-- Settles O32: the causes of an instruction, of the step with its fetch and decode, and of a transaction. -/
theorem conditionsEachStepCanRaise : Obligations.ConditionsEachStepCanRaise :=
  ⟨fun _ _ _ _ hs ht hc => exec_raisable hs ht hc, fun _ _ _ hs ht hc => coreStep_cause hs ht hc,
    fun _ _ _ _ ht hc => (perform_faulted ht hc).2⟩

/-! ## Precision (R201, R205) -/

/-- A state that took a fatal condition and nothing else records its code and its information. -/
theorem State.precise_of_eq_raise (h : t = s.raise c) :
    t = { s with status := .faulted c } ∧ t.fcause = some c.code ∧ t.finfo = some c.info := by
  subst h
  exact ⟨rfl, rfl, rfl⟩

theorem coreTurn_ne_next_of_faulted (hs : s.status = .faulted c) : coreTurn s ≠ .next t := by
  intro ht
  obtain ⟨hrunning, -⟩ := coreTurn_cases s t ht
  cases hrunning.symm.trans hs

/-- Settles O37: the codes and the information are read off; whatever ends Faulted is one `raise`; and Faulted has
neither a turn of the core nor a legal transaction but RESET. -/
theorem fatalConditionsArePrecise : Obligations.FatalConditionsArePrecise := by
  refine ⟨⟨rfl, rfl⟩, fun _ => ⟨rfl, rfl⟩, fun _ _ => ⟨rfl, rfl⟩, fun _ _ => ⟨rfl, rfl⟩, fun _ => ⟨rfl, rfl⟩,
    fun s t c hs ht hc => ?step, fun x s t c ht hc => ?transaction,
    fun s c hs => ⟨fun t => coreTurn_ne_next_of_faulted hs, fun x hx => ?refused⟩⟩
  case step => exact State.precise_of_eq_raise (coreStep_eq_raise_of_faulted hs ht hc)
  case transaction => exact State.precise_of_eq_raise (perform_faulted ht hc).1
  case refused => exact perform_of_illegal (hs ▸ legal_faulted c hx)

end Sys2Proof.Machine
